-- ==== Sys2Proof/Word.lean ====
section
/-! DEFINITION. The words of SSGR: the command word, the response word and the page byte (R80, R81, R87, R51). -/

namespace Sys2Proof

/-- A command word `cw`, 32 bits, one value without a byte order (R81, R52). -/
abbrev Word := BitVec 32

/-- A page byte, a stroke code or a control register: 8 bits (R51, R26, R29). -/
abbrev Byte := BitVec 8

/-- A response word `rw`, 16 bits (R87). -/
abbrev Reply := BitVec 16

end Sys2Proof
end

