-- ==== Sys2Proof/Syntax.lean ====
section
/-! DEFINITION. The fourteen commands of SSGR (R3, R82), one constructor per row of the opcode table, operands in the order
of the word's fields. DESIGN CHOICE (log 11), safe: operands are natural numbers "taken as they stand", SETNUM's value is an
integer (R83); WellFormed says which are the operands of a word. -/

namespace Sys2Proof

/-- A command of SSGR. -/
inductive Instr where
  /-- NOP: do nothing (R190) -/
  | nop
  /-- PCFG p, W, P: construct printer context `p` (R151) -/
  | pcfg (p w pages : Nat)
  /-- FCFGA f, dp, lp: bind the digit printer and the label printer of field `f` (R171) -/
  | fcfga (f dp lp : Nat)
  /-- FCFGB f, x, page, maxw: set the geometry of field `f` (R172) -/
  | fcfgb (f x page maxw : Nat)
  /-- BCLR p: zero the scratch buffer of `p` (R137) -/
  | bclr (p : Nat)
  /-- LINEH p, x, y, len: draw a horizontal run (R133) -/
  | lineh (p x y len : Nat)
  /-- LINEV p, x, y, len: draw a vertical run (R136) -/
  | linev (p x y len : Nat)
  /-- GLYPH p, sym: render one symbol into the scratch buffer (R118) -/
  | glyph (p sym : Nat)
  /-- PUSH p, col, page, len: send the scratch buffer to the display (R154) -/
  | push (p col page len : Nat)
  /-- PRINT p, sym, col, page: render one symbol and send it (R156); fields in the word's order -/
  | print (p col page sym : Nat)
  /-- PCLEAR p, col, page, width: blank a rectangle of the display (R158) -/
  | pclear (p col page width : Nat)
  /-- SETNUM f, value, lbl: draw a signed number and its unit label (R179); fields in the word's order -/
  | setnum (f lbl : Nat) (value : Int)
  /-- BRD p, x, page: read one byte of the scratch buffer (R138) -/
  | brd (p x page : Nat)
  /-- RDREG addr: read one control register (R191) -/
  | rdreg (addr : Nat)
  deriving DecidableEq, Repr

end Sys2Proof
end

