-- ==== Sys2Proof/WellFormed.lean ====
section
/-! DEFINITION. Which terms of Instr are the operands of a command word: every operand fits its field (R81, R82, R83).
An operand in its field's range that is not legal for the command (a selector not below NPRN, a symbol not below 15) is
well formed: it "still spells the command" and faults when executed (R84). -/

namespace Sys2Proof

/-- A selector field `sel`, or one half of FCFGA's `a`: 4 bits (R81, R83). -/
abbrev FitsSelector (n : Nat) : Prop := n < 16

/-- An operand field `a`, `b` or `c`: 8 bits (R81). -/
abbrev FitsByte (n : Nat) : Prop := n < 256

/-- SETNUM's value: a 16-bit two's-complement integer (R83). -/
abbrev FitsValue (v : Int) : Prop := -32768 ≤ v ∧ v ≤ 32767

/-- Every operand fits its field. -/
abbrev Instr.WellFormed (i : Instr) : Prop :=
  match i with
  | .nop => True
  | .pcfg p w pages => FitsSelector p ∧ FitsByte w ∧ FitsByte pages
  | .fcfga f dp lp => FitsSelector f ∧ FitsSelector dp ∧ FitsSelector lp
  | .fcfgb f x page maxw => FitsSelector f ∧ FitsByte x ∧ FitsByte page ∧ FitsByte maxw
  | .bclr p => FitsSelector p
  | .lineh p x y len => FitsSelector p ∧ FitsByte x ∧ FitsByte y ∧ FitsByte len
  | .linev p x y len => FitsSelector p ∧ FitsByte x ∧ FitsByte y ∧ FitsByte len
  | .glyph p sym => FitsSelector p ∧ FitsByte sym
  | .push p col page len => FitsSelector p ∧ FitsByte col ∧ FitsByte page ∧ FitsByte len
  | .print p col page sym => FitsSelector p ∧ FitsByte col ∧ FitsByte page ∧ FitsByte sym
  | .pclear p col page width => FitsSelector p ∧ FitsByte col ∧ FitsByte page ∧ FitsByte width
  | .setnum f lbl value => FitsSelector f ∧ FitsByte lbl ∧ FitsValue value
  | .brd p x page => FitsSelector p ∧ FitsByte x ∧ FitsByte page
  | .rdreg addr => FitsByte addr

end Sys2Proof
end

