-- ==== Sys2Proof/Decode.lean ====
section
/-! DEFINITION. The decoder, total on all 2^32 words and rejecting by name (R84, R85), the encoder written from the same
table (R81, R82), and the opcode table's match and mask values (R92). -/

namespace Sys2Proof

/-- `v[hi:lo]`, the bit field as an unsigned number (R12). -/
def bits (v : Word) (hi lo : Nat) : Nat := v.toNat / 2 ^ lo % 2 ^ (hi + 1 - lo)

/-- `sext_16`: a 16-bit field read as a two's-complement integer (R13, R83). -/
def sext16 (n : Nat) : Int := if n < 32768 then (n : Int) else (n : Int) - 65536

/-- The 16-bit field that spells an integer in two's complement. -/
def field16 (v : Int) : Nat := (v % 65536).toNat

/-- Why a word is illegal (R85). -/
inductive Illegal where
  /-- op 0xE or 0xF (R86) -/
  | reservedOpcode
  /-- a field marked 0 in the opcode's row of R82 is not zero -/
  | nonzeroField
  deriving DecidableEq, Repr

/-- What the decoder answers: exactly one command, or the reason there is none. -/
inductive Decoded where
  | instr (i : Instr)
  | illegal (why : Illegal)
  deriving DecidableEq, Repr

/-- A command whose must-be-zero fields add up to `zeros` (R85). -/
def spell (zeros : Nat) (i : Instr) : Decoded :=
  if zeros = 0 then .instr i else .illegal .nonzeroField

/-- The rows of R82 over the five fields of R81. -/
def decodeFields (op sel a b c : Nat) : Decoded :=
  match op with
  | 0x0 => spell (sel + a + b + c) .nop
  | 0x1 => spell c (.pcfg sel a b)
  | 0x2 => spell (b + c) (.fcfga sel (a / 16) (a % 16))
  | 0x3 => spell 0 (.fcfgb sel a b c)
  | 0x4 => spell (a + b + c) (.bclr sel)
  | 0x5 => spell 0 (.lineh sel a b c)
  | 0x6 => spell 0 (.linev sel a b c)
  | 0x7 => spell (a + b) (.glyph sel c)
  | 0x8 => spell 0 (.push sel a b c)
  | 0x9 => spell 0 (.print sel a b c)
  | 0xA => spell 0 (.pclear sel a b c)
  | 0xB => spell 0 (.setnum sel a (sext16 (b * 256 + c)))
  | 0xC => spell c (.brd sel a b)
  | 0xD => spell (sel + b + c) (.rdreg a)
  | _ => .illegal .reservedOpcode

/-- The decoder: the five fields of R81, then the row of R82. -/
def decode (w : Word) : Decoded :=
  decodeFields (bits w 31 28) (bits w 27 24) (bits w 23 16) (bits w 15 8) (bits w 7 0)

/-- `cw = op * 2^28 + sel * 2^24 + a * 2^16 + b * 2^8 + c` (R81). -/
def packFields (op sel a b c : Nat) : Word :=
  BitVec.ofNat 32 (op * 2 ^ 28 + sel * 2 ^ 24 + a * 2 ^ 16 + b * 2 ^ 8 + c)

/-- The word of a command (R82): the inverse of `decode` on well-formed commands. -/
def encode (i : Instr) : Word :=
  match i with
  | .nop => packFields 0x0 0 0 0 0
  | .pcfg p w pages => packFields 0x1 p w pages 0
  | .fcfga f dp lp => packFields 0x2 f (dp * 16 + lp) 0 0
  | .fcfgb f x page maxw => packFields 0x3 f x page maxw
  | .bclr p => packFields 0x4 p 0 0 0
  | .lineh p x y len => packFields 0x5 p x y len
  | .linev p x y len => packFields 0x6 p x y len
  | .glyph p sym => packFields 0x7 p 0 0 sym
  | .push p col page len => packFields 0x8 p col page len
  | .print p col page sym => packFields 0x9 p col page sym
  | .pclear p col page width => packFields 0xA p col page width
  | .setnum f lbl value => packFields 0xB f lbl (field16 value / 256) (field16 value % 256)
  | .brd p x page => packFields 0xC p x page 0
  | .rdreg addr => packFields 0xD 0 addr 0 0

/-- One row of the opcode table: a word spells the command exactly when `cw &&& mask = pattern` (R92). -/
structure OpRow where
  mnemonic : String
  pattern : Word
  mask : Word
  deriving DecidableEq, Repr

/-- The opcode table, masks as R85 and R92 give them. -/
def opcodeTable : List OpRow :=
  [⟨"NOP", 0x00000000#32, 0xFFFFFFFF#32⟩, ⟨"PCFG", 0x10000000#32, 0xF00000FF#32⟩,
   ⟨"FCFGA", 0x20000000#32, 0xF000FFFF#32⟩, ⟨"FCFGB", 0x30000000#32, 0xF0000000#32⟩,
   ⟨"BCLR", 0x40000000#32, 0xF0FFFFFF#32⟩, ⟨"LINEH", 0x50000000#32, 0xF0000000#32⟩,
   ⟨"LINEV", 0x60000000#32, 0xF0000000#32⟩, ⟨"GLYPH", 0x70000000#32, 0xF0FFFF00#32⟩,
   ⟨"PUSH", 0x80000000#32, 0xF0000000#32⟩, ⟨"PRINT", 0x90000000#32, 0xF0000000#32⟩,
   ⟨"PCLEAR", 0xA0000000#32, 0xF0000000#32⟩, ⟨"SETNUM", 0xB0000000#32, 0xF0000000#32⟩,
   ⟨"BRD", 0xC0000000#32, 0xF00000FF#32⟩, ⟨"RDREG", 0xD0000000#32, 0xFF00FFFF#32⟩]

/-- The word spells the command of the row (R92). -/
abbrev OpRow.Spells (r : OpRow) (w : Word) : Prop := w &&& r.mask = r.pattern

/-- The command an instruction's bits spell, numbered as the opcode table numbers them: bit 0 is bit 0 of the command word,
the bits from `nbits` up are 0. A command word has no byte order (R52), so nothing is laid out in bytes. -/
def decodeTableWord (nbits w : Nat) : Option Instr :=
  match decode (BitVec.ofNat 32 (w % 2 ^ nbits)) with
  | .instr i => some i
  | .illegal _ => none

end Sys2Proof
end

