-- ==== Sys2Proof/Config.lean ====
section
/-! DEFINITION. What a build of SSGR fixes (the parameter record of R10, with its legal ranges), the constants no build
may change, and the one free value: the bytes of a scratch buffer that nothing has written since reset (R42). -/

namespace Sys2Proof.Config

/-- NSYM, the number of stroke-table entries, fixed by the document (R10, R26). -/
def nsym : Nat := 15

/-- Pixel rows per page, fixed by the document (R10). -/
def rowsPerPage : Nat := 8

/-- Rows per page reserved as margin (R10, R111). -/
def marginPerPage : Nat := 2

/-- Register 0x00 `ID` (R36). -/
def idValue : Byte := 0x7A#8

/-- Register 0x01 `VER`: version 1.0 (R36). -/
def verValue : Byte := 0x10#8

/-- The parameters a model of SSGR takes as arguments (R10): context counts, buffer capacity, largest page count and the
stroke table. Its DCOLS and DPAGES are SinkSize's. DESIGN CHOICE (log 1): State carries this record and no step writes it, so that a statement about every
state is a statement about every build. Safe. -/
structure Params where
  /-- NPRN, number of printer contexts -/
  nprn : Nat
  /-- NFLD, number of field descriptors -/
  nfld : Nat
  /-- BUFSZ, bytes of scratch buffer in each printer context -/
  bufsz : Nat
  /-- MAXP, largest legal page count of a glyph -/
  maxp : Nat
  /-- STROKE[0..14], the stroke code of each symbol (R26) -/
  stroke : List Byte
  deriving DecidableEq, Repr

/-- The legal ranges of R10, and the one constraint R27 puts on the table: STROKE[1][7] = 1. -/
abbrev Params.Legal (c : Params) : Prop :=
  (1 ≤ c.nprn ∧ c.nprn ≤ 16) ∧ (1 ≤ c.nfld ∧ c.nfld ≤ 16) ∧ (2 ≤ c.bufsz ∧ c.bufsz ≤ 7905) ∧
    (1 ≤ c.maxp ∧ c.maxp ≤ 31) ∧ c.stroke.length = nsym ∧ (c.stroke.getD 1 0#8).getLsbD 7 = true

/-- The parameters DCOLS and DPAGES of R10, the size of the reference display sink of R66: any numbers (D27). They are no
state of SSGR and no part of a build, so they are an argument of the sink alone. -/
structure SinkSize where
  /-- DCOLS, columns -/
  dcols : Nat
  /-- DPAGES, pages -/
  dpages : Nat
  deriving DecidableEq, Repr

/-- The byte that index `i` of the scratch buffer of context `p` holds after the `epoch`-th reset until something writes
it: a FREE VALUE (log 3). "Each byte has some fixed value, the same on every read until written, that no rule determines"
(R42, U4). It has no body: nothing can be proved about its value. Safe. -/
opaque unwrittenByte (epoch p i : Nat) : Byte

end Sys2Proof.Config
end

