-- ==== Sys2Proof/Machine/Parameters.lean ====
section
/-! DEFINITION. The default parameter record of R10 with the default stroke table of R28: what State.reset is built with; and
the default size of the reference display sink. -/

namespace Sys2Proof.Machine

/-- The default stroke table. PRESUMED (log 2): the spec itself marks it "from general knowledge, not in source" (R28, G1).
Unsafe for a statement about the bytes of one glyph; no statement over all states rests on it. -/
def defaultStroke : List Byte :=
  [0x3F#8, 0x86#8, 0x5B#8, 0x4F#8, 0x66#8, 0x6D#8, 0x7D#8, 0x07#8, 0x7F#8, 0x6F#8,  -- digits 0..9
   0x40#8,                                                                          -- minus
   0x76#8, 0x39#8, 0x3E#8, 0x73#8]                                                  -- H C U P

/-- The defaults of R10. -/
def defaultParams : Config.Params :=
  { nprn := 4, nfld := 8, bufsz := 256, maxp := 8, stroke := defaultStroke }

/-- The defaults of R10 for the size of the reference display sink. -/
def defaultSink : Config.SinkSize := { dcols := 128, dpages := 8 }

end Sys2Proof.Machine
end

