-- ==== Sys2Proof/Machine/State.lean ====
section
/-! DEFINITION. The state of SSGR as plain data (R20), the state after reset (R41), and the reasons a step of the model
can stop. -/

namespace Sys2Proof.Machine

/-- One printer context, the hardware form of one GlyphPrinter (R21). -/
structure PrinterCtx where
  /-- VALID, 1 once the context has been configured -/
  valid : Bool
  /-- W, glyph width in pixel columns -/
  w : BitVec 8
  /-- P, glyph height in pages -/
  pages : BitVec 8
  deriving DecidableEq, Repr

/-- A context that PCFG has not constructed: all fields 0 (R21, R41). -/
def PrinterCtx.unconfigured : PrinterCtx := ⟨false, 0#8, 0#8⟩

/-- One field descriptor, the hardware form of one NumberField (R23). -/
structure FieldDesc where
  /-- VA, printers bound -/
  va : Bool
  /-- VB, geometry set -/
  vb : Bool
  /-- DP, selector of the digit printer context -/
  dp : BitVec 4
  /-- LP, selector of the label printer context -/
  lp : BitVec 4
  /-- X, anchor column -/
  x : BitVec 8
  /-- PAGE, starting (top) page -/
  page : BitVec 8
  /-- MAXW, maximum width in columns -/
  maxw : BitVec 8
  deriving DecidableEq, Repr

/-- A descriptor that nothing has written: all fields 0 (R23, R41). -/
def FieldDesc.unconfigured : FieldDesc := ⟨false, false, 0#4, 0#4, 0#8, 0#8, 0#8⟩

/-- The scratch buffer of one printer context: the bytes that have been written since reset, as (index, byte) pairs with
indices strictly rising. DESIGN CHOICE (log 4): an index that is not listed holds the unspecified byte of R42, which no
evaluation can compare with a written one, so a write never removes an entry. Safe. -/
abbrev Memory := List Host.Cell

/-- The canonical form: indices strictly rising, so no index twice. -/
abbrev Memory.wf (m : Memory) : Prop := m.Pairwise fun a b => a.1 < b.1

/-- A transport event: one request to the display (R60). Coordinates are natural numbers (R181; log 12). -/
inductive Event where
  /-- `DrawPage(page, col, len, bytes)`: write `len` column bytes at the page -/
  | drawPage (page col len : Nat) (bytes : List Byte)
  /-- `ClearPage(page, col, len)`: zero that run -/
  | clearPage (page col len : Nat)
  deriving DecidableEq, Repr

/-- What leaves SSGR: a response word on `rsp` or an event on `tx` (R80). -/
inductive Output where
  | response (rw : Reply)
  | event (e : Event)
  deriving DecidableEq, Repr

/-- What the host does to SSGR: a command word on `cmd` or a reset request on `rst` (R80). -/
inductive HostInput where
  | command (cw : Word)
  | reset
  deriving DecidableEq, Repr

/-- The whole state of SSGR (R20), with four fields of the model's own: the build's parameters, the count of resets, and
the two ends of the ports. -/
structure State where
  /-- the model's own: the parameters of R10, constant (log 1) -/
  params : Config.Params
  /-- PC[0..NPRN-1], the printer context file (R21) -/
  pc : List PrinterCtx
  /-- BUF[0..NPRN-1], the scratch page buffers (R22) -/
  buf : List Memory
  /-- FD[0..NFLD-1], the field descriptor file (R23) -/
  fd : List FieldDesc
  /-- STATUS.FAULT (R25, R30) -/
  fault : Bool
  /-- FCODE[3:0] (R31) -/
  fcode : BitVec 4
  /-- FCMD (R32) -/
  fcmd : BitVec 32
  /-- the model's own: how many resets there have been, the counter of the free buffer bytes (R42; log 3) -/
  epoch : Nat
  /-- the model's own: what the host has still to present on `cmd` and `rst`, first first (R7, R9; log 5) -/
  inputs : List HostInput
  /-- the model's own: what has left on `rsp` and `tx`, in order (R8, R68; log 6) -/
  trace : List Output
  deriving DecidableEq, Repr

/-- Why the machine stops with a fault: NEVER. A fault of the spec is a next state, HALTED, in which every later command
still gets its response (R203, R204), and no rule stops the block otherwise (R89), so this type has no constructor
(DEDUCED, log 14). Safe: no step of the model can end in one. -/
inductive Fault where
  deriving DecidableEq, Repr

/-- Why a step has no meaning. -/
inductive Refusal where
  /-- raised by exec's arm of an instruction without a meaning (there is none left); safe -/
  | notModelled (mnemonic : String)
  /-- raised by step on a parameter record outside the ranges of R10: such a configuration "is refused" (U17); safe -/
  | illegalConfig
  deriving DecidableEq, Repr

/-- A block of build `c` just after its `epoch`-th reset (R41): everything unconfigured, fault state 0, every buffer byte
unspecified (nothing listed). -/
def State.fresh (c : Config.Params) (epoch : Nat) : State :=
  { params := c
    pc := List.replicate c.nprn PrinterCtx.unconfigured
    buf := List.replicate c.nprn []
    fd := List.replicate c.nfld FieldDesc.unconfigured
    fault := false
    fcode := 0#4
    fcmd := 0#32
    epoch := epoch
    inputs := []
    trace := [] }

/-- The machine right after reset (R41), a build with the default parameters of R10 and R28 (log 2). DESIGN CHOICE: epoch 0,
no host input pending, nothing sent yet (logs 3, 5, 6). -/
def State.reset : State := State.fresh defaultParams 0

end Sys2Proof.Machine
end

