-- ==== Sys2Proof/Machine/Ops.lean ====
section
/-! DEFINITION. The named operations every meaning is written over: the register files (R21, R23), the scratch buffers and
their three access primitives (R53), the transport and response ports (R60, R87), fault entry and the HALTED state (R203,
R204), the frame every command has (R209), and reset (R230). -/

namespace Sys2Proof.Machine

/-- What executing one command answers. -/
abbrev Result := Host.Outcome State Fault Refusal

/-! ### Register files -/

/-- `PC[p]` (R14, R21). DESIGN CHOICE (log 13), safe: outside the file an entry reads as unconfigured; no check lets a selector
get there. -/
def ctx (s : State) (p : Nat) : PrinterCtx := s.pc.getD p PrinterCtx.unconfigured

/-- `PC[p].W` as a number (R13). -/
def widthOf (s : State) (p : Nat) : Nat := (ctx s p).w.toNat

/-- `PC[p].P` as a number (R13). -/
def pagesOf (s : State) (p : Nat) : Nat := (ctx s p).pages.toNat

/-- `PC[p] <- c`. -/
def setCtx (s : State) (p : Nat) (c : PrinterCtx) : State := { s with pc := s.pc.set p c }

/-- `FD[f]` (R14, R23). -/
def desc (s : State) (f : Nat) : FieldDesc := s.fd.getD f FieldDesc.unconfigured

/-- `FD[f] <- d`. -/
def setDesc (s : State) (f : Nat) (d : FieldDesc) : State := { s with fd := s.fd.set f d }

/-- `STROKE[sym]` (R14, R26). -/
def strokeOf (c : Config.Params) (sym : Nat) : Byte := c.stroke.getD sym 0#8

/-! ### Scratch buffers (R50 to R53) -/

/-- The byte listed for an index, if any has been written. -/
def Memory.byteAt : Memory → Nat → Option Byte
  | [], _ => none
  | (a, b) :: rest, i => if a = i then some b else Memory.byteAt rest i

/-- List a byte at an index, in rising order, in place of the one listed there. -/
def Memory.write : Memory → Nat → Byte → Memory
  | [], i, v => [(i, v)]
  | (a, b) :: rest, i, v =>
    if i < a then (i, v) :: (a, b) :: rest
    else if i = a then (i, v) :: rest
    else (a, b) :: Memory.write rest i v

/-- Zero bytes at the indices 0..n-1, everything from `n` up as it was. -/
def Memory.zeroFirst (n : Nat) (m : Memory) : Memory :=
  ((List.range n).map fun i => (i, 0#8)) ++ m.filter fun cell => decide (n ≤ cell.1)

/-- The scratch buffer of context `p`. -/
def bufOf (s : State) (p : Nat) : Memory := s.buf.getD p []

/-- Put a buffer in the place of the one of context `p`. -/
def setBuf (s : State) (p : Nat) (m : Memory) : State := { s with buf := s.buf.set p m }

/-- `MemRead(p, i)`: `BUF[p][i]`, the byte written last, or the unspecified byte the buffer has held since reset (R42, R53). -/
def memRead (s : State) (p i : Nat) : Byte :=
  ((bufOf s p).byteAt i).getD (Config.unwrittenByte s.epoch p i)

/-- `MemOr(p, i, m)`: `BUF[p][i] <- BUF[p][i] | m` (R53). With `m = 0` nothing is listed: "OR with zero is not observable"
(R140; log 16). -/
def memOr (s : State) (p i : Nat) (m : Byte) : State :=
  if m = 0#8 then s else setBuf s p ((bufOf s p).write i (memRead s p i ||| m))

/-- `MemZero(p)`: `BUF[p][i] <- 0` for every i in 0..W*P-1 (R14, R53). -/
def memZero (s : State) (p : Nat) : State :=
  setBuf s p ((bufOf s p).zeroFirst (widthOf s p * pagesOf s p))

/-- `Pix(p, x, r) = BUF[p][(r/8)*W + x][r % 8]` (R51). -/
def pix (s : State) (p x r : Nat) : Bool := (memRead s p (r / 8 * widthOf s p + x)).getLsbD (r % 8)

/-! ### The ports (R60, R64, R87) -/

/-- `Emit(e)` for each event of the list, in order (R14, R64). -/
def emitAll (s : State) (es : List Event) : State := { s with trace := s.trace ++ es.map Output.event }

/-- The codes of R88 and R201. -/
inductive FaultCode where
  | errOpcode | errSel | errUncfg | errRecfg | errAlloc | errSymbol | errRange | errLayout
  deriving DecidableEq, Repr

/-- The number of a fault code (R88, R201). -/
def FaultCode.number : FaultCode → BitVec 4
  | .errOpcode => 0x1#4
  | .errSel => 0x2#4
  | .errUncfg => 0x3#4
  | .errRecfg => 0x4#4
  | .errAlloc => 0x5#4
  | .errSymbol => 0x6#4
  | .errRange => 0x7#4
  | .errLayout => 0x8#4

/-- The response code OK (R88). -/
def codeOk : BitVec 4 := 0x0#4

/-- The response code HALTED (R88). -/
def codeHalted : BitVec 4 := 0xF#4

/-- `rw[15:12] = code`, `rw[11:8] = 0`, `rw[7:0] = value` (R87). -/
def responseWord (code : BitVec 4) (value : Byte) : Reply := code ++ 0#4 ++ value

/-- `respond(code, value)`: the command's one response word (R14, R80, R87). -/
def respond (s : State) (code : BitVec 4) (value : Byte) : State :=
  { s with trace := s.trace ++ [.response (responseWord code value)] }

/-! ### Faults (R201 to R204) -/

/-- Fault entry, `raise Fault(code)` by a command with word `cw`: `FCODE <- code`; `FCMD <- cw`; `STATUS.FAULT <- 1`;
`respond(code, 0)`; nothing else (R203). There is no handler and no return: only `applyReset` leaves HALTED (R204). -/
def raiseFault (code : FaultCode) (cw : Word) (s : State) : State :=
  respond { s with fcode := code.number, fcmd := cw, fault := true } code.number 0#8

/-- A command discarded because the block is HALTED: the response 0xF000 and nothing else (R204). -/
def discard (s : State) : State := respond s codeHalted 0#8

/-- The fault of the first check that fails, in the order listed (R209). A check is whether it fails, and its fault. -/
def firstFault : List (Bool × FaultCode) → Option FaultCode
  | [] => none
  | (failed, code) :: rest => if failed then some code else firstFault rest

/-- The frame of every command but RDREG: the HALTED test, then the checks in order, then the effect and the response OK
with its value (R202, R209). FCMD takes the command's own word, `encode i` (log 8). -/
def command (i : Instr) (checks : List (Bool × FaultCode)) (effect : State → State × Byte) (s : State) : State :=
  if s.fault then discard s
  else
    match firstFault checks with
    | some code => raiseFault code (encode i) s
    | none => respond (effect s).1 codeOk (effect s).2

/-- An illegal word: discarded when HALTED, else ERR_OPCODE (R85, R205). RDREG's encoding check, made before the HALTED test
(R191), gives the same. -/
def illegalWord (cw : Word) (s : State) : State :=
  if s.fault then discard s else raiseFault .errOpcode cw s

/-! ### Reset (R230) -/

/-- What `rst` does: the reset state of R41, buffers unspecified again (a new epoch of free bytes), no response and no
event; the parameters are a build's and stay, and the observed sequences continue (R230, R232). -/
def applyReset (s : State) : State :=
  { State.fresh s.params (s.epoch + 1) with inputs := s.inputs, trace := s.trace }

/-! ### Observation (R8) -/

/-- The sequence of response words observed so far. -/
def responses (s : State) : List Reply :=
  s.trace.filterMap fun o => match o with
    | .response rw => some rw
    | .event _ => none

/-- The sequence of transport events observed so far. -/
def events (s : State) : List Event :=
  s.trace.filterMap fun o => match o with
    | .response _ => none
    | .event e => some e

end Sys2Proof.Machine
end

