-- ==== Sys2Proof/Machine/Operands.lean ====
section
/-! DEFINITION. The operand checks the commands share, each as whether it fails and the fault it then raises (R201), and the
lists of them in the order of R209. -/

namespace Sys2Proof.Machine

/-- `p >= NPRN`: ERR_SEL (R201). -/
def printerExists (s : State) (p : Nat) : Bool × FaultCode := (decide (s.params.nprn ≤ p), .errSel)

/-- `f >= NFLD`: ERR_SEL (R201). -/
def fieldExists (s : State) (f : Nat) : Bool × FaultCode := (decide (s.params.nfld ≤ f), .errSel)

/-- `PC[p].VALID = 0`: ERR_UNCFG (R201). -/
def printerConfigured (s : State) (p : Nat) : Bool × FaultCode := (!(ctx s p).valid, .errUncfg)

/-- `sym >= 15`: ERR_SYMBOL (R201, R119). -/
def symbolValid (sym : Nat) : Bool × FaultCode := (decide (Config.nsym ≤ sym), .errSymbol)

/-- Coordinates outside the scratch buffer: ERR_RANGE (R201, R55). -/
def inRange (outside : Bool) : Bool × FaultCode := (outside, .errRange)

/-- The checks of a command that only needs a configured printer (R209 steps 2 and 3). -/
def usablePrinter (s : State) (p : Nat) : List (Bool × FaultCode) := [printerExists s p, printerConfigured s p]

/-- PCFG's checks (R151). -/
def pcfgChecks (s : State) (p w pages : Nat) : List (Bool × FaultCode) :=
  [printerExists s p, ((ctx s p).valid, .errRecfg),
   (decide (w < 2) || decide (pages < 1) || decide (s.params.maxp < pages) || decide (s.params.bufsz < w * pages), .errAlloc)]

/-- FCFGA's checks (R171). -/
def fcfgaChecks (s : State) (f dp lp : Nat) : List (Bool × FaultCode) :=
  [fieldExists s f, ((desc s f).va, .errRecfg), printerExists s dp, printerExists s lp,
   printerConfigured s dp, printerConfigured s lp]

/-- FCFGB's checks (R172). -/
def fcfgbChecks (s : State) (f : Nat) : List (Bool × FaultCode) := [fieldExists s f, ((desc s f).vb, .errRecfg)]

/-- LINEH's checks: `x >= W or y >= 8P or x + len > W` (R133). -/
def linehChecks (s : State) (p x y len : Nat) : List (Bool × FaultCode) :=
  usablePrinter s p ++
    [inRange (decide (widthOf s p ≤ x) || decide (8 * pagesOf s p ≤ y) || decide (widthOf s p < x + len))]

/-- LINEV's checks: `x >= W or y >= 8P or y + len > 8P` (R136). -/
def linevChecks (s : State) (p x y len : Nat) : List (Bool × FaultCode) :=
  usablePrinter s p ++
    [inRange (decide (widthOf s p ≤ x) || decide (8 * pagesOf s p ≤ y) || decide (8 * pagesOf s p < y + len))]

/-- GLYPH's and PRINT's checks (R118, R156). -/
def symbolChecks (s : State) (p sym : Nat) : List (Bool × FaultCode) := usablePrinter s p ++ [symbolValid sym]

/-- PUSH's checks: `len > W` (R154). -/
def pushChecks (s : State) (p len : Nat) : List (Bool × FaultCode) :=
  usablePrinter s p ++ [inRange (decide (widthOf s p < len))]

/-- BRD's checks: `x >= W or page >= P` (R138). -/
def brdChecks (s : State) (p x page : Nat) : List (Bool × FaultCode) :=
  usablePrinter s p ++ [inRange (decide (widthOf s p ≤ x) || decide (pagesOf s p ≤ page))]

/-- SETNUM's checks; ERR_LAYOUT where the label's top page would be negative (R179). -/
def setnumChecks (s : State) (f lbl : Nat) : List (Bool × FaultCode) :=
  let d := desc s f
  [fieldExists s f, (!d.va || !d.vb, .errUncfg), symbolValid lbl,
   (decide (d.page.toNat + pagesOf s d.dp.toNat < pagesOf s d.lp.toNat), .errLayout)]

end Sys2Proof.Machine
end

