-- ==== Sys2Proof/Machine/Lines.lean ====
section
/-! DEFINITION. The page line rasterizer: LineH (R131), LineV (R135) with its row-by-row reference (R134), and the commands
BCLR, LINEH, LINEV, BRD (R137, R133, R136, R138). -/

namespace Sys2Proof.Machine

/-- `LineH(p, x, y, len)`: one bit per column in row `y`, columns [x, x+len) (R131). -/
def lineH (p x y len : Nat) (s : State) : State :=
  (List.range len).foldl (fun t k => memOr t p (y / 8 * widthOf s p + x + k) (BitVec.ofNat 8 (1 <<< (y % 8)))) s

/-- The masks of a vertical run that starts at bit `s` of its first page, top page first: the short form when it fits in the
head byte, else head, middle bytes 0xFF, and a tail when one is left (R135, R57). -/
def columnMasks (s len : Nat) : List Byte :=
  if s + len ≤ 8 then [BitVec.ofNat 8 (((1 <<< len) - 1) <<< s)]
  else
    let rem := len - (8 - s)
    BitVec.ofNat 8 (0xFF <<< s) :: List.replicate (rem / 8) 0xFF#8 ++
      (if 0 < rem % 8 then [BitVec.ofNat 8 ((1 <<< (rem % 8)) - 1)] else [])

/-- OR the masks into column `x` of consecutive pages from page `q`, one byte each (R135). -/
def orDown (p x w : Nat) : Nat → List Byte → State → State
  | _, [], s => s
  | q, m :: rest, s => orDown p x w (q + 1) rest (memOr s p (q * w + x) m)

/-- `LineV(p, x, y, len)`: `len` consecutive bits in column `x` from row `y`, page by page (R135). -/
def lineV (p x y len : Nat) (s : State) : State :=
  orDown p x (widthOf s p) (y / 8) (columnMasks (y % 8) len) s

/-- `LineVref(p, x, y, len)`: the naive row-by-row reference (R134); no command calls it. -/
def lineVref (p x y len : Nat) (s : State) : State :=
  (List.range len).foldl
    (fun t k => memOr t p ((y + k) / 8 * widthOf s p + x) (BitVec.ofNat 8 (1 <<< ((y + k) % 8)))) s

/-- BCLR: zero a printer's scratch buffer (R137). -/
def execBclr (p : Nat) (s : State) : Result :=
  .next (command (.bclr p) (usablePrinter s p) (fun t => (memZero t p, 0#8)) s)

/-- LINEH: draw a horizontal run into a printer's scratch buffer (R133). -/
def execLineh (p x y len : Nat) (s : State) : Result :=
  .next (command (.lineh p x y len) (linehChecks s p x y len) (fun t => (lineH p x y len t, 0#8)) s)

/-- LINEV: draw a vertical run into a printer's scratch buffer (R136). -/
def execLinev (p x y len : Nat) (s : State) : Result :=
  .next (command (.linev p x y len) (linevChecks s p x y len) (fun t => (lineV p x y len t, 0#8)) s)

/-- BRD: read one byte of a printer's scratch buffer (R138). -/
def execBrd (p x page : Nat) (s : State) : Result :=
  .next (command (.brd p x page) (brdChecks s p x page) (fun t => (t, memRead t p (page * widthOf t p + x))) s)

end Sys2Proof.Machine
end

