-- ==== Sys2Proof/Machine/Glyph.lean ====
section
/-! DEFINITION. The segment glyph renderer: drawn width (R113), Draw (R115) and the command GLYPH (R118). -/

namespace Sys2Proof.Machine

/-- The usable interior height `h = 8P - 2P` (R111). -/
def interiorHeight (pages : Nat) : Nat := Config.rowsPerPage * pages - Config.marginPerPage * pages

/-- The effective drawn width of a glyph with stroke code `code` in a context of width `w`: `w / 2` when bit 7 is set (R113). -/
def drawnWidth (code : Byte) (w : Nat) : Nat := if code.getLsbD 7 then w / 2 else w

/-- Draw one stroke if its bit of the code is 1 (R115). -/
def strokeIf (present : Bool) (line : State → State) (s : State) : State := if present then line s else s

/-- The seven strokes of a code, in drawn width `w` and interior height `h` (R114, R115). Their placement is the spec's decision
D8, UNVERIFIED (log 10): unsafe for a claim about the original firmware. -/
def drawStrokes (p : Nat) (code : Byte) (w h : Nat) (s : State) : State :=
  let half := h / 2
  let s := strokeIf (code.getLsbD 0) (lineH p 0 0 w) s
  let s := strokeIf (code.getLsbD 1) (lineV p (w - 1) 0 half) s
  let s := strokeIf (code.getLsbD 2) (lineV p (w - 1) half (h - half)) s
  let s := strokeIf (code.getLsbD 3) (lineH p 0 (h - 1) w) s
  let s := strokeIf (code.getLsbD 4) (lineV p 0 half (h - half)) s
  let s := strokeIf (code.getLsbD 5) (lineV p 0 0 half) s
  strokeIf (code.getLsbD 6) (lineH p 0 half w) s

/-- The drawn width of symbol `sym` in context `p` (R113). -/
def glyphWidth (s : State) (p sym : Nat) : Nat := drawnWidth (strokeOf s.params sym) (widthOf s p)

/-- `Draw(p, sym)`: zero the buffer, draw the strokes (R115). Its return value is `glyphWidth s p sym`. -/
def draw (p sym : Nat) (s : State) : State :=
  drawStrokes p (strokeOf s.params sym) (glyphWidth s p sym) (interiorHeight (pagesOf s p)) (memZero s p)

/-- GLYPH: render one symbol into a printer's scratch buffer (R118). -/
def execGlyph (p sym : Nat) (s : State) : Result :=
  .next (command (.glyph p sym) (symbolChecks s p sym) (fun t => (draw p sym t, BitVec.ofNat 8 (glyphWidth t p sym))) s)

end Sys2Proof.Machine
end

