-- ==== Sys2Proof/Machine/Printer.lean ====
section
/-! DEFINITION. The glyph compositor with page buffer: Push (R153), Print (R155), Clear (R157) and the commands PCFG, PUSH,
PRINT, PCLEAR (R151, R154, R156, R158). -/

namespace Sys2Proof.Machine

/-- The bytes of columns 0..len-1 of page `q` of a scratch buffer, in ascending column order (R52, R153). -/
def pageRun (s : State) (p q len : Nat) : List Byte :=
  (List.range len).map fun k => memRead s p (q * widthOf s p + k)

/-- The events of `Push(p, col, page, len)`, top page first (R153). -/
def pushEvents (s : State) (p col page len : Nat) : List Event :=
  (List.range (pagesOf s p)).map fun i => .drawPage (page + i) col len (pageRun s p i len)

/-- `Push(p, col, page, len)`: send the first `len` columns of every page (R153). -/
def push (p col page len : Nat) (s : State) : State := emitAll s (pushEvents s p col page len)

/-- `Print(p, sym, col, page)`: Draw, then Push of the drawn width (R155). Its return value is `glyphWidth s p sym`. -/
def print (p sym col page : Nat) (s : State) : State := push p col page (glyphWidth s p sym) (draw p sym s)

/-- The events of `Clear(p, col, page, width)` for a printer of `pages` pages, top page first (R157). -/
def clearEvents (pages col page width : Nat) : List Event :=
  (List.range pages).map fun i => .clearPage (page + i) col width

/-- `Clear(p, col, page, width)`: blank a rectangle as high as the printer's glyph (R157). -/
def clear (p col page width : Nat) (s : State) : State := emitAll s (clearEvents (pagesOf s p) col page width)

/-- PCFG: construct a printer context; the buffer bytes are not written (R151). -/
def execPcfg (p w pages : Nat) (s : State) : Result :=
  .next (command (.pcfg p w pages) (pcfgChecks s p w pages)
    (fun t => (setCtx t p ⟨true, BitVec.ofNat 8 w, BitVec.ofNat 8 pages⟩, 0#8)) s)

/-- PUSH: send the current scratch buffer to the display (R154). -/
def execPush (p col page len : Nat) (s : State) : Result :=
  .next (command (.push p col page len) (pushChecks s p len) (fun t => (push p col page len t, 0#8)) s)

/-- PRINT: render one symbol and send it to the display (R156). -/
def execPrint (p col page sym : Nat) (s : State) : Result :=
  .next (command (.print p col page sym) (symbolChecks s p sym)
    (fun t => (print p sym col page t, BitVec.ofNat 8 (glyphWidth t p sym))) s)

/-- PCLEAR: blank a rectangle of the display (R158). -/
def execPclear (p col page width : Nat) (s : State) : Result :=
  .next (command (.pclear p col page width) (usablePrinter s p) (fun t => (clear p col page width t, 0#8)) s)

end Sys2Proof.Machine
end

