-- ==== Sys2Proof/Machine/Field.lean ====
section
/-! DEFINITION. The number-field layout engine: Decompose (R173, R174), SetNumber (R176) and the commands FCFGA, FCFGB,
SETNUM (R171, R172, R179). -/

namespace Sys2Proof.Machine

/-- The symbol of the sign marker: minus (R16, R173). -/
def symMinus : Nat := 10

/-- The decimal digits of `m`, least significant first; the body runs at least once, so 0 gives [0] (R173). One unit of fuel
a digit; `m + 1` is always enough. -/
def digitsUp : Nat → Nat → List Nat
  | 0, _ => []
  | fuel + 1, m => (m % 10) :: (if m / 10 = 0 then [] else digitsUp fuel (m / 10))

/-- `Decompose(v)`: an optional minus, then the decimal digits of |v|, most significant first (R173, C2). The magnitude is a
natural number, so -32768 gives 32768 (R174; D17, UNVERIFIED, log 10, unsafe for a claim about the original firmware). -/
def decompose (v : Int) : List Nat :=
  (digitsUp (v.natAbs + 1) v.natAbs ++ (if v < 0 then [symMinus] else [])).reverse

/-- `interDigitGap = max(digitPrinterWidth/3, 2)` (R176). -/
def digitGap (w : Nat) : Nat := max (w / 3) 2

/-- The digit loop of SetNumber: print each symbol at `col`, then move right by its drawn width and the gap (R176). -/
def printDigits (dp top : Nat) : Nat → List Nat → State → State
  | _, [], s => s
  | col, d :: rest, s =>
    printDigits dp top (col + glyphWidth s dp d + digitGap (widthOf s dp)) rest (print dp d col top s)

/-- How far the digit loop moves right in all: the final `x_offset` of R176. -/
def digitsExtent (s : State) (dp : Nat) : List Nat → Nat
  | [] => 0
  | d :: rest => glyphWidth s dp d + digitGap (widthOf s dp) + digitsExtent s dp rest

/-- `SetNumber(f, v, lbl)`: clear the field's extent, print the number's symbols, print the label aligned by its bottom page
(R176, R177, R178). The cleared extent and the arithmetic without wrap are the spec's decisions D16 and D18, UNVERIFIED (log
10): unsafe for a claim about the original firmware. -/
def setNumber (f : Nat) (v : Int) (lbl : Nat) (s : State) : State :=
  let d := desc s f
  let dp := d.dp.toNat
  let lp := d.lp.toNat
  let x := d.x.toNat
  let top := d.page.toNat
  let s1 := clear dp x top d.maxw.toNat s
  let s2 := printDigits dp top x (decompose v) s1
  print lp lbl (x + digitsExtent s dp (decompose v) + widthOf s dp / 4) (top + pagesOf s dp - pagesOf s lp) s2

/-- FCFGA: bind the digit printer and the label printer of a field (R171). -/
def execFcfga (f dp lp : Nat) (s : State) : Result :=
  .next (command (.fcfga f dp lp) (fcfgaChecks s f dp lp)
    (fun t => (setDesc t f { desc t f with dp := BitVec.ofNat 4 dp, lp := BitVec.ofNat 4 lp, va := true }, 0#8)) s)

/-- FCFGB: set the geometry of a field (R172). -/
def execFcfgb (f x page maxw : Nat) (s : State) : Result :=
  .next (command (.fcfgb f x page maxw) (fcfgbChecks s f)
    (fun t => (setDesc t f { desc t f with
        x := BitVec.ofNat 8 x, page := BitVec.ofNat 8 page, maxw := BitVec.ofNat 8 maxw, vb := true }, 0#8)) s)

/-- SETNUM: draw a signed number and its unit label in a field (R179). -/
def execSetnum (f lbl : Nat) (value : Int) (s : State) : Result :=
  .next (command (.setnum f lbl value) (setnumChecks s f lbl) (fun t => (setNumber f value lbl t, 0#8)) s)

end Sys2Proof.Machine
end

