-- ==== Sys2Proof/Machine/Flags.lean ====
section
/-! DEFINITION. The one flag of SSGR, STATUS.FAULT (R25), its output level (R212), and the fault registers as RDREG shows
them (R30 to R32). No command sets any other flag: there is no carry, zero or sign. -/

namespace Sys2Proof.Machine

/-- The level of the `fault` output: equal to STATUS.FAULT (R212). DESIGN CHOICE (log 17), safe: a view, with no history. -/
def faultOutput (s : State) : Bool := s.fault

/-- `STATUS`: bit 0 FAULT, bits 7:1 read 0 (R30). -/
def statusReg (s : State) : Byte := if s.fault then 0x01#8 else 0x00#8

/-- `FCODE`: bits 3:0 the code, bits 7:4 read 0 (R31). -/
def fcodeReg (s : State) : Byte := s.fcode.zeroExtend 8

/-- `FCMD0..FCMD3`: byte `k` of the faulting word, low byte first (R32, R52). -/
def fcmdReg (s : State) (k : Nat) : Byte := s.fcmd.extractLsb' (8 * k) 8

end Sys2Proof.Machine
end

