-- ==== Sys2Proof/Machine/System.lean ====
section
/-! DEFINITION. The system commands NOP and RDREG (R190, R191) and the control-register map (R29 to R38). -/

namespace Sys2Proof.Machine

/-- One bit as a register bit. -/
def bitReg (b : Bool) (k : Nat) : Byte := if b then BitVec.ofNat 8 (1 <<< k) else 0#8

/-- The printer context window: register `k` of context `p`; a context at or above NPRN reads 0 (R34). -/
def printerReg (s : State) (p k : Nat) : Byte :=
  if s.params.nprn ≤ p then 0#8
  else
    match k with
    | 0 => bitReg (ctx s p).valid 0
    | 1 => (ctx s p).w
    | 2 => (ctx s p).pages
    | _ => 0#8

/-- The field descriptor window: register `k` of field `f`; a field at or above NFLD reads 0 (R35). -/
def fieldReg (s : State) (f k : Nat) : Byte :=
  if s.params.nfld ≤ f then 0#8
  else
    match k with
    | 0 => bitReg (desc s f).va 0 ||| bitReg (desc s f).vb 1
    | 1 => (desc s f).dp.zeroExtend 8
    | 2 => (desc s f).lp.zeroExtend 8
    | 3 => (desc s f).x
    | 4 => (desc s f).page
    | 5 => (desc s f).maxw
    | _ => 0#8

/-- Addresses 0x00..0x0F: identification, parameters, fault record (R30 to R32, R36, R37). -/
def systemReg (s : State) (addr : Nat) : Byte :=
  match addr with
  | 0x00 => Config.idValue
  | 0x01 => Config.verValue
  | 0x02 => BitVec.ofNat 8 s.params.nprn
  | 0x03 => BitVec.ofNat 8 s.params.nfld
  | 0x04 => BitVec.ofNat 8 (s.params.bufsz % 256)
  | 0x05 => BitVec.ofNat 8 (s.params.bufsz / 256)
  | 0x06 => BitVec.ofNat 8 Config.nsym
  | 0x07 => BitVec.ofNat 8 s.params.maxp
  | 0x08 => statusReg s
  | 0x09 => fcodeReg s
  | 0x0A => fcmdReg s 0
  | 0x0B => fcmdReg s 1
  | 0x0C => fcmdReg s 2
  | 0x0D => fcmdReg s 3
  | _ => 0#8

/-- `Reg(addr)`, the map of R38. A read has no side effect and every address not named reads 0 (R29, R37). -/
def regRead (s : State) (addr : Nat) : Byte :=
  if addr < 0x10 then systemReg s addr
  else if addr < 0x20 then (if addr < 0x10 + Config.nsym then strokeOf s.params (addr - 0x10) else 0#8)
  else if addr < 0x60 then printerReg s ((addr - 0x20) / 4) ((addr - 0x20) % 4)
  else if addr < 0x80 then 0#8
  else if addr < 0x100 then fieldReg s ((addr - 0x80) / 8) ((addr - 0x80) % 8)
  else 0#8

/-- NOP: do nothing (R190). -/
def execNop (s : State) : Result := .next (command .nop [] (fun t => (t, 0#8)) s)

/-- RDREG: read one control register; a well-formed one "executes normally" also while HALTED (R191, R204). -/
def execRdreg (addr : Nat) (s : State) : Result := .next (respond s codeOk (regRead s addr))

end Sys2Proof.Machine
end

