-- ==== Sys2Proof/Machine/Dispatch.lean ====
section
/-! DEFINITION. exec: one arm per command, each one call of that command's meaning. -/

namespace Sys2Proof.Machine

def exec (i : Instr) (s : State) : Host.Outcome State Fault Refusal :=
  match i with
  | .nop => Sys2Proof.Machine.execNop s
  | .pcfg p w pages => Sys2Proof.Machine.execPcfg p w pages s
  | .fcfga f dp lp => Sys2Proof.Machine.execFcfga f dp lp s
  | .fcfgb f x page maxw => Sys2Proof.Machine.execFcfgb f x page maxw s
  | .bclr p => Sys2Proof.Machine.execBclr p s
  | .lineh p x y len => Sys2Proof.Machine.execLineh p x y len s
  | .linev p x y len => Sys2Proof.Machine.execLinev p x y len s
  | .glyph p sym => Sys2Proof.Machine.execGlyph p sym s
  | .push p col page len => Sys2Proof.Machine.execPush p col page len s
  | .print p col page sym => Sys2Proof.Machine.execPrint p col page sym s
  | .pclear p col page width => Sys2Proof.Machine.execPclear p col page width s
  | .setnum f lbl value => Sys2Proof.Machine.execSetnum f lbl value s
  | .brd p x page => Sys2Proof.Machine.execBrd p x page s
  | .rdreg addr => Sys2Proof.Machine.execRdreg addr s

end Sys2Proof.Machine
end

