-- ==== Sys2Proof/Machine/Accept.lean ====
section
/-! DEFINITION. What SSGR does with one host transfer: a command word latched whole from the port (R70, R80), or a reset
request, honoured between commands (R230, R231). -/

namespace Sys2Proof.Machine

/-- Accept a command word: execute the command it spells, or treat it as illegal (R84, R85). -/
def accept (cw : Word) (s : State) : Result :=
  match decode cw with
  | .instr i => exec i s
  | .illegal _ => .next (illegalWord cw s)

/-- Take the first pending host transfer; with none pending the block is idle and nothing changes (R214, R230). A reset is
honoured between commands only: the spec's decision D32, UNVERIFIED (log 7). Unsafe for a claim about the display after an
asynchronous reset. -/
def takeInput (s : State) : Result :=
  match s.inputs with
  | [] => .next s
  | .command cw :: rest => accept cw { s with inputs := rest }
  | .reset :: rest => .next (applyReset { s with inputs := rest })

/-- The host presents a command word before everything it has still to present (log 5). -/
def presentWord (cw : Word) (s : State) : State := { s with inputs := .command cw :: s.inputs }

/-- The command word whose opcode-table bits are `w`: the bits from `nbits` up are 0. -/
def tableWord (nbits w : Nat) : Word := BitVec.ofNat 32 (w % 2 ^ nbits)

end Sys2Proof.Machine
end

