-- ==== Sys2Proof/Machine/Step.lean ====
section
/-! DEFINITION. One step: one transfer from the host, executed start to finish (R7, R68, R243). -/

namespace Sys2Proof.Machine

/-- One step of SSGR. A parameter record outside R10 is refused (U17; log 9). -/
def step (s : State) : Host.Outcome State Fault Refusal :=
  if s.params.Legal then takeInput s else .refused .illegalConfig

/-- The state in which the host presents the instruction next. SSGR has no instruction memory (R24): the command port is
where it takes its next command from (log 5). -/
def State.withFetchWord (s : State) (nbits w : Nat) : State := presentWord (tableWord nbits w) s

end Sys2Proof.Machine
end

