-- ==== Sys2Proof/Machine/Display.lean ====
section
/-! DEFINITION. The reference display sink of R66: "for test vectors only; not part of SSGR", so it is a function of its size
(DCOLS, DPAGES of R10) and of the event sequence, and no field of State (DESIGN CHOICE, log 18, safe). -/

namespace Sys2Proof.Machine

/-- The sink has a byte at this position: `0 <= page < DPAGES`, `0 <= col < DCOLS` (R66). -/
abbrev InSink (d : Config.SinkSize) (page col : Nat) : Prop := page < d.dpages ∧ col < d.dcols

/-- An event that addresses columns `c..c+len-1` of page `q` reaches this position; "positions outside the sink are ignored"
(R66). -/
abbrev Reaches (d : Config.SinkSize) (page col q c len : Nat) : Prop :=
  q = page ∧ c ≤ col ∧ col < c + len ∧ InSink d page col

/-- `DISP[page][col]` after one event, from its byte `old` before it: DrawPage overwrites, ClearPage zeroes (R66). -/
def sinkEvent (d : Config.SinkSize) (page col : Nat) (old : Byte) (e : Event) : Byte :=
  match e with
  | .drawPage q c len bytes => if Reaches d page col q c len then bytes.getD (col - c) old else old
  | .clearPage q c len => if Reaches d page col q c len then 0#8 else old

/-- `DISP[page][col]` after an event sequence, from its byte `old` before it (R66). -/
def sinkAfter (d : Config.SinkSize) (old : Byte) (es : List Event) (page col : Nat) : Byte :=
  es.foldl (sinkEvent d page col) old

/-- The picture of an event sequence on a sink that is "all 0x00 at the start of a test"; outside the sink there is none
(R66). -/
def picture (d : Config.SinkSize) (es : List Event) (page col : Nat) : Option Byte :=
  if InSink d page col then some (sinkAfter d 0x00#8 es page col) else none

end Sys2Proof.Machine
end

