-- ==== Sys2Proof/Safety.lean ====
section
/-! DEFINITION. The terms the statements use: a clean state (R9), the state invariant (R43 with the layout rules), what a
drawing command leaves alone, the closed form of a glyph and of a number field (R116, R176), and the decode of R120. -/

namespace Sys2Proof.Machine

/-- RUN: no fault since reset (R9, R213). -/
abbrev Running (s : State) : Prop := s.fault = false

/-- Context `p` exists and is configured: the premise of every drawing command (R209). -/
abbrev UsablePrinter (s : State) (p : Nat) : Prop := p < s.params.nprn ∧ (ctx s p).valid = true

/-- Field `f` exists and both halves of its construction are done (R23). -/
abbrev UsableField (s : State) (f : Nat) : Prop :=
  f < s.params.nfld ∧ (desc s f).va = true ∧ (desc s f).vb = true

/-- Where a context stands: configured with a legal geometry, or unconfigured with W and P 0 (R21, R43 (a)). -/
abbrev CtxOk (c : Config.Params) (x : PrinterCtx) : Prop :=
  if x.valid then
    2 ≤ x.w.toNat ∧ 1 ≤ x.pages.toNat ∧ x.pages.toNat ≤ c.maxp ∧ x.w.toNat * x.pages.toNat ≤ c.bufsz
  else x.w = 0#8 ∧ x.pages = 0#8

/-- Where a descriptor stands: printers bound to configured contexts or both selectors 0 (R43 (b)), geometry set or 0 (R23). -/
abbrev DescOk (s : State) (d : FieldDesc) : Prop :=
  (if d.va then UsablePrinter s d.dp.toNat ∧ UsablePrinter s d.lp.toNat else d.dp = 0#4 ∧ d.lp = 0#4) ∧
    (d.vb = true ∨ d.x = 0#8 ∧ d.page = 0#8 ∧ d.maxw = 0#8)

/-- A transport event is within the bounds R60 and R181 give: page at most 285, column at most 2358, length at most 255, and
a DrawPage carries exactly `len` bytes. -/
abbrev EventFits (e : Event) : Prop :=
  match e with
  | .drawPage page col len bytes => page ≤ 285 ∧ col ≤ 2358 ∧ len ≤ 255 ∧ bytes.length = len
  | .clearPage page col len => page ≤ 285 ∧ col ≤ 2358 ∧ len ≤ 255

/-- The invariant of every reachable state: R43 (a), (b), (d), the sizes of the register files (R20), the canonical form of
the buffers with no byte at W*P or above written (R50, R55), and the bounds of the events sent (R60, R181). -/
structure State.Inv (s : State) : Prop where
  legal : s.params.Legal
  pc_length : s.pc.length = s.params.nprn
  buf_length : s.buf.length = s.params.nprn
  fd_length : s.fd.length = s.params.nfld
  ctx_ok : ∀ p < s.params.nprn, CtxOk s.params (ctx s p)
  desc_ok : ∀ f < s.params.nfld, DescOk s (desc s f)
  buf_wf : ∀ p < s.params.nprn, (bufOf s p).wf
  buf_bound : ∀ p < s.params.nprn, ∀ cell ∈ bufOf s p, cell.1 < widthOf s p * pagesOf s p
  fault_iff : s.fault = true ↔ s.fcode ≠ 0#4
  fcode_le : s.fcode.toNat ≤ 8
  fcmd_zero : s.fault = false → s.fcmd = 0#32
  events_fit : ∀ e ∈ events s, EventFits e

/-- Everything but the scratch buffers and the two output sequences is the same: parameters, printer contexts, field
descriptors, fault state, epoch and pending host transfers. -/
structure SameControl (s t : State) : Prop where
  params : t.params = s.params
  pc : t.pc = s.pc
  fd : t.fd = s.fd
  fault : t.fault = s.fault
  fcode : t.fcode = s.fcode
  fcmd : t.fcmd = s.fcmd
  epoch : t.epoch = s.epoch
  inputs : t.inputs = s.inputs

/-! ### The closed forms of R116, R153 and R176 -/

/-- Whether the pixel at column `x`, row `r` of a glyph of stroke code `code`, drawn width `w` and `pages` pages is set (R116). -/
def glyphPixel (code : Byte) (w pages x r : Nat) : Bool :=
  let h := 6 * pages
  let half := 3 * pages
  decide (x < w) &&
    ((code.getLsbD 0 && decide (r = 0)) || (code.getLsbD 3 && decide (r = h - 1)) || (code.getLsbD 6 && decide (r = half)) ||
     (code.getLsbD 5 && decide (x = 0 ∧ r < half)) || (code.getLsbD 4 && decide (x = 0 ∧ half ≤ r ∧ r < h)) ||
     (code.getLsbD 1 && decide (x = w - 1 ∧ r < half)) || (code.getLsbD 2 && decide (x = w - 1 ∧ half ≤ r ∧ r < h)))

/-- The byte at (page `q`, column `x`) of that glyph: bit j is the pixel at row 8q+j (R51). -/
def glyphByte (code : Byte) (w pages q x : Nat) : Byte :=
  (List.range 8).foldl
    (fun acc j => if glyphPixel code w pages x (8 * q + j) then acc ||| BitVec.ofNat 8 (1 <<< j) else acc) 0#8

/-- The events of printing symbol `sym` with a printer of width `w` and `pages` pages: one DrawPage a page, top page first,
each of the drawn width (R155). They depend on the stroke table and the geometry alone. -/
def glyphEvents (c : Config.Params) (w pages sym col page : Nat) : List Event :=
  let code := strokeOf c sym
  let dw := drawnWidth code w
  (List.range pages).map fun i =>
    .drawPage (page + i) col dw ((List.range dw).map fun k => glyphByte code dw pages i k)

/-- The column of the symbol after `col`: its drawn width and the gap to the right (R176). -/
def nextColumn (c : Config.Params) (w sym col : Nat) : Nat := col + drawnWidth (strokeOf c sym) w + digitGap w

/-- The events of the symbols of a number, left to right from column `col` (R176). -/
def digitEvents (c : Config.Params) (w pages top : Nat) : Nat → List Nat → List Event
  | _, [] => []
  | col, d :: rest => glyphEvents c w pages d col top ++ digitEvents c w pages top (nextColumn c w d col) rest

/-- The column right of the last symbol's gap: `x + x_offset` after the digit loop (R176). -/
def afterDigits (c : Config.Params) (w : Nat) : Nat → List Nat → Nat
  | col, [] => col
  | col, d :: rest => afterDigits c w (nextColumn c w d col) rest

/-- The events of SETNUM: the clear, the symbols of the value, the label at `x + x_offset + Wd/4`, page `top + Pd - Pl`
(R176 to R179). They depend on the stroke table, the descriptor, the two geometries and the operands alone (R183). -/
def fieldEvents (c : Config.Params) (dg lb : PrinterCtx) (d : FieldDesc) (v : Int) (lbl : Nat) : List Event :=
  let wd := dg.w.toNat
  let pd := dg.pages.toNat
  let x := d.x.toNat
  let top := d.page.toNat
  clearEvents pd x top d.maxw.toNat ++ digitEvents c wd pd top x (decompose v) ++
    glyphEvents c lb.w.toNat lb.pages.toNat lbl (afterDigits c wd x (decompose v) + wd / 4) (top + pd - lb.pages.toNat)

/-! ### Reading a glyph back (R120) -/

/-- The stroke set decoded from the pixels of context `p`, for drawn width `w` (R120): bit i is stroke i. -/
def decodedStrokes (s : State) (p w : Nat) : Byte :=
  let h := 6 * pagesOf s p
  let half := 3 * pagesOf s p
  bitReg (pix s p 1 0) 0 ||| bitReg (pix s p (w - 1) 1) 1 ||| bitReg (pix s p (w - 1) (half + 1)) 2 |||
    bitReg (pix s p 1 (h - 1)) 3 ||| bitReg (pix s p 0 (half + 1)) 4 ||| bitReg (pix s p 0 1) 5 ||| bitReg (pix s p 1 half) 6

end Sys2Proof.Machine
end

