-- ==== Sys2Proof/Certificates/Slice0/Obligations.lean ====
section
/-! DEFINITION. The statements for the provers. Each docstring names the rule of spec/ it formalises. -/

open Sys2Proof Sys2Proof.Machine

/-! ### Encoding -/

/-- Words E1 to E18 of 95_test_vectors.md section 2.1, one for every command, decode to the command written beside them. -/
def Obligations.SpecExampleWordsDecode : Prop :=
  decode 0x00000000#32 = .instr .nop ∧ decode 0x10060200#32 = .instr (.pcfg 0 6 2) ∧
  decode 0x20010000#32 = .instr (.fcfga 0 0 1) ∧ decode 0x300A013C#32 = .instr (.fcfgb 0 10 1 60) ∧
  decode 0x40000000#32 = .instr (.bclr 0) ∧ decode 0x50010902#32 = .instr (.lineh 0 1 9 2) ∧
  decode 0x6002050E#32 = .instr (.linev 0 2 5 14) ∧ decode 0x70000002#32 = .instr (.glyph 0 2) ∧
  decode 0x80640204#32 = .instr (.push 0 100 2 4) ∧ decode 0x900A0201#32 = .instr (.print 0 10 2 1) ∧
  decode 0xA00A0228#32 = .instr (.pclear 0 10 2 40) ∧ decode 0xB00CFFF1#32 = .instr (.setnum 0 12 (-15)) ∧
  decode 0xC0020100#32 = .instr (.brd 0 2 1) ∧ decode 0xD0110000#32 = .instr (.rdreg 0x11) ∧
  decode 0x910D0004#32 = .instr (.print 1 13 0 4) ∧ decode 0x21220000#32 = .instr (.fcfga 1 2 2) ∧
  decode 0xB00D8000#32 = .instr (.setnum 0 13 (-32768)) ∧ decode 0xB00E7FFF#32 = .instr (.setnum 0 14 32767)

/-- R81 to R83: every well-formed command is read back from its word, with every operand at every value its field admits. -/
def Obligations.EncodedCommandDecodesBack : Prop :=
  ∀ i : Instr, i.WellFormed → decode (encode i) = .instr i

/-- R84: a word that passes spells exactly one command: it is that command's word, and its operands fit their fields. So FCMD,
which a meaning takes from `encode`, is the word presented (log 8). -/
def Obligations.DecodedWordIsItsEncoding : Prop :=
  ∀ (cw : Word) (i : Instr), decode cw = .instr i → encode i = cw ∧ i.WellFormed

/-- R85: a word is illegal exactly when its opcode is reserved or a must-be-zero bit of its opcode is set, by the masks R85
lists; executing it in RUN raises ERR_OPCODE; the all-zero word is NOP, the all-one word is illegal. -/
def Obligations.IllegalEncodings : Prop :=
  (∀ cw : Word, (∃ why, decode cw = .illegal why) ↔
    (bits cw 31 28 = 0xE ∨ bits cw 31 28 = 0xF ∨
     (bits cw 31 28 = 0x0 ∧ cw &&& 0x0FFFFFFF#32 ≠ 0#32) ∨ (bits cw 31 28 = 0x1 ∧ cw &&& 0x000000FF#32 ≠ 0#32) ∨
     (bits cw 31 28 = 0x2 ∧ cw &&& 0x0000FFFF#32 ≠ 0#32) ∨ (bits cw 31 28 = 0x4 ∧ cw &&& 0x00FFFFFF#32 ≠ 0#32) ∨
     (bits cw 31 28 = 0x7 ∧ cw &&& 0x00FFFF00#32 ≠ 0#32) ∨ (bits cw 31 28 = 0xC ∧ cw &&& 0x000000FF#32 ≠ 0#32) ∨
     (bits cw 31 28 = 0xD ∧ cw &&& 0x0F00FFFF#32 ≠ 0#32))) ∧
  (∀ (s : State) (cw : Word) (why : Illegal), s.params.Legal → Running s → decode cw = .illegal why →
    step (presentWord cw s) = .next (raiseFault .errOpcode cw s)) ∧
  decode 0x00000000#32 = .instr .nop ∧ (∃ why, decode 0xFFFFFFFF#32 = .illegal why)

/-- R92, an inference the spec marks as its own: two rows of the opcode table never both match one word,
and the words no row matches are the illegal ones. -/
def Obligations.OpcodeRowsPartitionTheWords : Prop :=
  (∀ (cw : Word), ∀ r ∈ opcodeTable, ∀ r' ∈ opcodeTable, r.Spells cw → r'.Spells cw → r = r') ∧
  (∀ cw : Word, (∃ i, decode cw = .instr i) ↔ ∃ r ∈ opcodeTable, r.Spells cw)

/-! ### The step -/

/-- R84, and R68, which the spec marks derived: when the next word from the host spells the command `i`,
step is exec of `i`, the word taken off the host's
pending transfers (the pending list is the model's form of the command port, log 5). -/
def Obligations.StepRunsDecodedCommand : Prop :=
  ∀ (s : State) (cw : Word) (i : Instr) (rest : List HostInput), s.params.Legal → s.inputs = .command cw :: rest →
    decode cw = .instr i → step s = exec i { s with inputs := rest }

/-- The host interface of this row: the instruction whose opcode-table bits are `w` runs as the very next step (log 5). -/
def Obligations.PresentedTableWordRunsNext : Prop :=
  ∀ (s : State) (nbits w : Nat) (i : Instr), s.params.Legal → decodeTableWord nbits w = some i →
    step (s.withFetchWord nbits w) = exec i s

/-- R41, R230: a reset request leaves every context and every descriptor unconfigured with all fields 0, the fault state 0 and
the output low, no byte of any buffer determined (log 3), no response and no event. -/
def Obligations.ResetRequestTakesTheResetState : Prop :=
  ∀ (s : State) (rest : List HostInput), s.params.Legal → s.inputs = .reset :: rest →
    ∃ t, step s = .next t ∧ (∀ p, ctx t p = ⟨false, 0#8, 0#8⟩) ∧
      (∀ f, desc t f = ⟨false, false, 0#4, 0#4, 0#8, 0#8, 0#8⟩) ∧
      t.fault = false ∧ faultOutput t = false ∧ t.fcode = 0#4 ∧ t.fcmd = 0#32 ∧ t.trace = s.trace ∧ t.params = s.params ∧
      t.inputs = rest ∧ ∀ p i, memRead t p i = Config.unwrittenByte (s.epoch + 1) p i

/-- R214, R230: with nothing from the host the block is idle and nothing executes by itself (the idle step is log 5's). -/
def Obligations.IdleStepChangesNothing : Prop :=
  ∀ s : State, s.params.Legal → s.inputs = [] → step s = .next s

/-! ### Faults, HALTED, responses -/

/-- R204: while HALTED every word but a well-formed RDREG is answered 0xF000 with no other effect, a well-formed RDREG answers
its register, and no step but a reset leaves HALTED or changes the fault record. -/
def Obligations.HaltedDiscardsAllButRdreg : Prop :=
  (∀ (s : State) (cw : Word), s.params.Legal → s.fault = true → (∀ addr, decode cw ≠ .instr (.rdreg addr)) →
    step (presentWord cw s) = .next { s with trace := s.trace ++ [.response 0xF000#16] }) ∧
  (∀ (s : State) (cw : Word) (addr : Nat), s.params.Legal → s.fault = true → decode cw = .instr (.rdreg addr) →
    step (presentWord cw s) = .next { s with trace := s.trace ++ [.response ((regRead s addr).zeroExtend 16)] }) ∧
  (∀ s t : State, s.fault = true → s.inputs.head? ≠ some .reset → step s = .next t →
    t.fault = true ∧ t.fcode = s.fcode ∧ t.fcmd = s.fcmd ∧ t.pc = s.pc ∧ t.fd = s.fd ∧ t.buf = s.buf)

/-- R203 with R202: a word that faults in RUN records its code and itself, raises the fault output, answers `code << 12`, and
has no other effect at all. -/
def Obligations.FaultEntryIsPrecise : Prop :=
  ∀ (s t : State) (cw : Word), s.params.Legal → Running s → step (presentWord cw s) = .next t → t.fault = true →
    ∃ code : FaultCode, faultOutput t = true ∧
      t = { s with fcode := code.number, fcmd := cw, fault := true,
                   trace := s.trace ++ [.response (BitVec.ofNat 16 (code.number.toNat * 4096))] }

/-- R80, R64 (and R68, which the spec marks derived): for every command word accepted there is exactly one response word, after all of the command's events, and
what was sent before is neither dropped nor reordered. -/
def Obligations.OneResponseAfterAllEvents : Prop :=
  ∀ (s : State) (cw : Word), s.params.Legal →
    ∃ (t : State) (es : List Event) (rw : Reply), step (presentWord cw s) = .next t ∧
      t.trace = s.trace ++ es.map Output.event ++ [.response rw]

/-- R21 to R23, R20: over all commands, only PCFG writes printer contexts, only FCFGA and FCFGB write descriptors, and only the
six drawing commands write scratch buffers. -/
def Obligations.OnlyNamedCommandsWriteEachFile : Prop :=
  ∀ (i : Instr) (s t : State), exec i s = .next t →
    ((∀ p w pages, i ≠ .pcfg p w pages) → t.pc = s.pc) ∧
    ((∀ f dp lp, i ≠ .fcfga f dp lp) → (∀ f x page maxw, i ≠ .fcfgb f x page maxw) → t.fd = s.fd) ∧
    ((∀ p, i ≠ .bclr p) → (∀ p x y len, i ≠ .lineh p x y len) → (∀ p x y len, i ≠ .linev p x y len) →
      (∀ p sym, i ≠ .glyph p sym) → (∀ p col page sym, i ≠ .print p col page sym) →
      (∀ f lbl v, i ≠ .setnum f lbl v) → t.buf = s.buf)

/-! ### The pseudocode of each command, word for word (encoding, checks in order, effect, response) -/

/-- R190. -/
def Obligations.NopPseudocode : Prop :=
  ∀ (s : State) (cw : Word), s.params.Legal → bits cw 31 28 = 0x0 →
    step (presentWord cw s) = .next (
      if s.fault = true then discard s
      else if cw &&& 0x0FFFFFFF#32 ≠ 0#32 then raiseFault .errOpcode cw s
      else respond s codeOk 0#8)

/-- R151. -/
def Obligations.PcfgPseudocode : Prop :=
  ∀ (s : State) (cw : Word), s.params.Legal → bits cw 31 28 = 0x1 →
    let p := bits cw 27 24
    let w := bits cw 23 16
    let pages := bits cw 15 8
    step (presentWord cw s) = .next (
      if s.fault = true then discard s
      else if cw &&& 0x000000FF#32 ≠ 0#32 then raiseFault .errOpcode cw s
      else if s.params.nprn ≤ p then raiseFault .errSel cw s
      else if (ctx s p).valid = true then raiseFault .errRecfg cw s
      else if w < 2 ∨ pages < 1 ∨ s.params.maxp < pages ∨ s.params.bufsz < w * pages then raiseFault .errAlloc cw s
      else respond (setCtx s p ⟨true, BitVec.ofNat 8 w, BitVec.ofNat 8 pages⟩) codeOk 0#8)

/-- R171. -/
def Obligations.FcfgaPseudocode : Prop :=
  ∀ (s : State) (cw : Word), s.params.Legal → bits cw 31 28 = 0x2 →
    let f := bits cw 27 24
    let dp := bits cw 23 20
    let lp := bits cw 19 16
    step (presentWord cw s) = .next (
      if s.fault = true then discard s
      else if cw &&& 0x0000FFFF#32 ≠ 0#32 then raiseFault .errOpcode cw s
      else if s.params.nfld ≤ f then raiseFault .errSel cw s
      else if (desc s f).va = true then raiseFault .errRecfg cw s
      else if s.params.nprn ≤ dp ∨ s.params.nprn ≤ lp then raiseFault .errSel cw s
      else if (ctx s dp).valid = false ∨ (ctx s lp).valid = false then raiseFault .errUncfg cw s
      else respond (setDesc s f { desc s f with dp := BitVec.ofNat 4 dp, lp := BitVec.ofNat 4 lp, va := true }) codeOk 0#8)

/-- R172. -/
def Obligations.FcfgbPseudocode : Prop :=
  ∀ (s : State) (cw : Word), s.params.Legal → bits cw 31 28 = 0x3 →
    let f := bits cw 27 24
    step (presentWord cw s) = .next (
      if s.fault = true then discard s
      else if s.params.nfld ≤ f then raiseFault .errSel cw s
      else if (desc s f).vb = true then raiseFault .errRecfg cw s
      else respond (setDesc s f { desc s f with
          x := BitVec.ofNat 8 (bits cw 23 16), page := BitVec.ofNat 8 (bits cw 15 8), maxw := BitVec.ofNat 8 (bits cw 7 0),
          vb := true }) codeOk 0#8)

/-- R137. -/
def Obligations.BclrPseudocode : Prop :=
  ∀ (s : State) (cw : Word), s.params.Legal → bits cw 31 28 = 0x4 →
    let p := bits cw 27 24
    step (presentWord cw s) = .next (
      if s.fault = true then discard s
      else if cw &&& 0x00FFFFFF#32 ≠ 0#32 then raiseFault .errOpcode cw s
      else if s.params.nprn ≤ p then raiseFault .errSel cw s
      else if (ctx s p).valid = false then raiseFault .errUncfg cw s
      else respond (memZero s p) codeOk 0#8)

/-- R133. -/
def Obligations.LinehPseudocode : Prop :=
  ∀ (s : State) (cw : Word), s.params.Legal → bits cw 31 28 = 0x5 →
    let p := bits cw 27 24
    let x := bits cw 23 16
    let y := bits cw 15 8
    let len := bits cw 7 0
    step (presentWord cw s) = .next (
      if s.fault = true then discard s
      else if s.params.nprn ≤ p then raiseFault .errSel cw s
      else if (ctx s p).valid = false then raiseFault .errUncfg cw s
      else if widthOf s p ≤ x ∨ 8 * pagesOf s p ≤ y ∨ widthOf s p < x + len then raiseFault .errRange cw s
      else respond (lineH p x y len s) codeOk 0#8)

/-- R136. -/
def Obligations.LinevPseudocode : Prop :=
  ∀ (s : State) (cw : Word), s.params.Legal → bits cw 31 28 = 0x6 →
    let p := bits cw 27 24
    let x := bits cw 23 16
    let y := bits cw 15 8
    let len := bits cw 7 0
    step (presentWord cw s) = .next (
      if s.fault = true then discard s
      else if s.params.nprn ≤ p then raiseFault .errSel cw s
      else if (ctx s p).valid = false then raiseFault .errUncfg cw s
      else if widthOf s p ≤ x ∨ 8 * pagesOf s p ≤ y ∨ 8 * pagesOf s p < y + len then raiseFault .errRange cw s
      else respond (lineV p x y len s) codeOk 0#8)

/-- R118. -/
def Obligations.GlyphPseudocode : Prop :=
  ∀ (s : State) (cw : Word), s.params.Legal → bits cw 31 28 = 0x7 →
    let p := bits cw 27 24
    let sym := bits cw 7 0
    step (presentWord cw s) = .next (
      if s.fault = true then discard s
      else if cw &&& 0x00FFFF00#32 ≠ 0#32 then raiseFault .errOpcode cw s
      else if s.params.nprn ≤ p then raiseFault .errSel cw s
      else if (ctx s p).valid = false then raiseFault .errUncfg cw s
      else if 15 ≤ sym then raiseFault .errSymbol cw s
      else respond (draw p sym s) codeOk (BitVec.ofNat 8 (glyphWidth s p sym)))

/-- R154. -/
def Obligations.PushPseudocode : Prop :=
  ∀ (s : State) (cw : Word), s.params.Legal → bits cw 31 28 = 0x8 →
    let p := bits cw 27 24
    let len := bits cw 7 0
    step (presentWord cw s) = .next (
      if s.fault = true then discard s
      else if s.params.nprn ≤ p then raiseFault .errSel cw s
      else if (ctx s p).valid = false then raiseFault .errUncfg cw s
      else if widthOf s p < len then raiseFault .errRange cw s
      else respond (push p (bits cw 23 16) (bits cw 15 8) len s) codeOk 0#8)

/-- R156. -/
def Obligations.PrintPseudocode : Prop :=
  ∀ (s : State) (cw : Word), s.params.Legal → bits cw 31 28 = 0x9 →
    let p := bits cw 27 24
    let sym := bits cw 7 0
    step (presentWord cw s) = .next (
      if s.fault = true then discard s
      else if s.params.nprn ≤ p then raiseFault .errSel cw s
      else if (ctx s p).valid = false then raiseFault .errUncfg cw s
      else if 15 ≤ sym then raiseFault .errSymbol cw s
      else respond (print p sym (bits cw 23 16) (bits cw 15 8) s) codeOk (BitVec.ofNat 8 (glyphWidth s p sym)))

/-- R158. -/
def Obligations.PclearPseudocode : Prop :=
  ∀ (s : State) (cw : Word), s.params.Legal → bits cw 31 28 = 0xA →
    let p := bits cw 27 24
    step (presentWord cw s) = .next (
      if s.fault = true then discard s
      else if s.params.nprn ≤ p then raiseFault .errSel cw s
      else if (ctx s p).valid = false then raiseFault .errUncfg cw s
      else respond (clear p (bits cw 23 16) (bits cw 15 8) (bits cw 7 0) s) codeOk 0#8)

/-- R179, with the sign extension of R83. -/
def Obligations.SetnumPseudocode : Prop :=
  ∀ (s : State) (cw : Word), s.params.Legal → bits cw 31 28 = 0xB →
    let f := bits cw 27 24
    let lbl := bits cw 23 16
    let d := desc s f
    step (presentWord cw s) = .next (
      if s.fault = true then discard s
      else if s.params.nfld ≤ f then raiseFault .errSel cw s
      else if d.va = false ∨ d.vb = false then raiseFault .errUncfg cw s
      else if 15 ≤ lbl then raiseFault .errSymbol cw s
      else if d.page.toNat + pagesOf s d.dp.toNat < pagesOf s d.lp.toNat then raiseFault .errLayout cw s
      else respond (setNumber f (BitVec.ofNat 16 (bits cw 15 0)).toInt lbl s) codeOk 0#8)

/-- R138. -/
def Obligations.BrdPseudocode : Prop :=
  ∀ (s : State) (cw : Word), s.params.Legal → bits cw 31 28 = 0xC →
    let p := bits cw 27 24
    let x := bits cw 23 16
    let q := bits cw 15 8
    step (presentWord cw s) = .next (
      if s.fault = true then discard s
      else if cw &&& 0x000000FF#32 ≠ 0#32 then raiseFault .errOpcode cw s
      else if s.params.nprn ≤ p then raiseFault .errSel cw s
      else if (ctx s p).valid = false then raiseFault .errUncfg cw s
      else if widthOf s p ≤ x ∨ pagesOf s p ≤ q then raiseFault .errRange cw s
      else respond s codeOk (memRead s p (q * widthOf s p + x)))

/-- R191: the encoding check comes before the HALTED test. -/
def Obligations.RdregPseudocode : Prop :=
  ∀ (s : State) (cw : Word), s.params.Legal → bits cw 31 28 = 0xD →
    step (presentWord cw s) = .next (
      if cw &&& 0x0F00FFFF#32 ≠ 0#32 then (if s.fault = true then discard s else raiseFault .errOpcode cw s)
      else respond s codeOk (regRead s (bits cw 23 16)))

/-! ### Each command completes: its result and its frame -/

/-- NOP in RUN answers 0x0000 and changes nothing else (R190). -/
def Obligations.NopCompletes : Prop :=
  ∀ s : State, Running s → exec .nop s = .next { s with trace := s.trace ++ [.response 0x0000#16] }

/-- PCFG of an unconfigured context with a legal geometry writes W, P and VALID of that context and nothing else; the buffer
bytes are not written (R151). -/
def Obligations.PcfgCompletes : Prop :=
  ∀ (s : State) (p w pages : Nat), (Instr.pcfg p w pages).WellFormed → Running s → p < s.params.nprn →
    (ctx s p).valid = false → 2 ≤ w → 1 ≤ pages → pages ≤ s.params.maxp → w * pages ≤ s.params.bufsz →
    exec (.pcfg p w pages) s = .next { s with
      pc := s.pc.set p { valid := true, w := BitVec.ofNat 8 w, pages := BitVec.ofNat 8 pages }
      trace := s.trace ++ [.response 0x0000#16] }

/-- FCFGA of a field whose printers are not bound, with two usable printers, writes DP, LP and VA of that field and nothing
else (R171). -/
def Obligations.FcfgaCompletes : Prop :=
  ∀ (s : State) (f dp lp : Nat), (Instr.fcfga f dp lp).WellFormed → Running s → f < s.params.nfld →
    (desc s f).va = false → UsablePrinter s dp → UsablePrinter s lp →
    exec (.fcfga f dp lp) s = .next { s with
      fd := s.fd.set f { va := true, vb := (desc s f).vb, dp := BitVec.ofNat 4 dp, lp := BitVec.ofNat 4 lp,
                         x := (desc s f).x, page := (desc s f).page, maxw := (desc s f).maxw }
      trace := s.trace ++ [.response 0x0000#16] }

/-- FCFGB of a field whose geometry is not set writes X, PAGE, MAXW and VB of that field and nothing else; no value is refused
(R172). -/
def Obligations.FcfgbCompletes : Prop :=
  ∀ (s : State) (f x page maxw : Nat), (Instr.fcfgb f x page maxw).WellFormed → Running s → f < s.params.nfld →
    (desc s f).vb = false →
    exec (.fcfgb f x page maxw) s = .next { s with
      fd := s.fd.set f { va := (desc s f).va, vb := true, dp := (desc s f).dp, lp := (desc s f).lp,
                         x := BitVec.ofNat 8 x, page := BitVec.ofNat 8 page, maxw := BitVec.ofNat 8 maxw }
      trace := s.trace ++ [.response 0x0000#16] }

/-- BCLR of a usable printer zeroes its first W*P bytes and leaves every other byte of every buffer, and all else, alone
(R137). -/
def Obligations.BclrCompletes : Prop :=
  ∀ (s : State) (p : Nat), s.Inv → Running s → UsablePrinter s p →
    ∃ t, exec (.bclr p) s = .next t ∧ SameControl s t ∧ t.trace = s.trace ++ [.response 0x0000#16] ∧
      (∀ i < widthOf s p * pagesOf s p, memRead t p i = 0x00#8) ∧
      ∀ q i, q ≠ p ∨ widthOf s p * pagesOf s p ≤ i → memRead t q i = memRead s q i

/-- LINEH inside the buffer ORs the one-bit mask of row `y` into exactly the `len` bytes of page y/8, columns [x, x+len), and
leaves every other byte, and all else, alone: after it the pixels of the run are 1 and every other pixel is as before (R131). -/
def Obligations.LinehCompletes : Prop :=
  ∀ (s : State) (p x y len : Nat), s.Inv → Running s → UsablePrinter s p → x < widthOf s p → y < 8 * pagesOf s p →
    x + len ≤ widthOf s p →
    ∃ t, exec (.lineh p x y len) s = .next t ∧ SameControl s t ∧ t.trace = s.trace ++ [.response 0x0000#16] ∧
      (∀ cx r, cx < widthOf s p → r < 8 * pagesOf s p →
        (pix t p cx r = true ↔ pix s p cx r = true ∨ (r = y ∧ x ≤ cx ∧ cx < x + len))) ∧
      (∀ k < len, memRead t p (y / 8 * widthOf s p + x + k) =
        memRead s p (y / 8 * widthOf s p + x + k) ||| BitVec.ofNat 8 (2 ^ (y % 8))) ∧
      ∀ q i, (q ≠ p ∨ i < y / 8 * widthOf s p + x ∨ y / 8 * widthOf s p + x + len ≤ i) → memRead t q i = memRead s q i

/-- LINEV inside the buffer sets the pixels of column `x`, rows [y, y+len), and leaves every other pixel of the context, every
byte of every other buffer, and all else, alone (R134). -/
def Obligations.LinevCompletes : Prop :=
  ∀ (s : State) (p x y len : Nat), s.Inv → Running s → UsablePrinter s p → x < widthOf s p → y < 8 * pagesOf s p →
    y + len ≤ 8 * pagesOf s p →
    ∃ t, exec (.linev p x y len) s = .next t ∧ SameControl s t ∧ t.trace = s.trace ++ [.response 0x0000#16] ∧
      (∀ cx r, cx < widthOf s p → r < 8 * pagesOf s p →
        (pix t p cx r = true ↔ pix s p cx r = true ∨ (cx = x ∧ y ≤ r ∧ r < y + len))) ∧
      ∀ q i, q ≠ p ∨ widthOf s p * pagesOf s p ≤ i → memRead t q i = memRead s q i

/-- R139, an inference the spec marks as its own (from R134, R135): LINEV leaves the same state as the naive row-by-row reference, for every starting buffer content. -/
def Obligations.LinevEqualsRowByRowReference : Prop :=
  ∀ (s : State) (p x y len : Nat), s.Inv → Running s → UsablePrinter s p → x < widthOf s p → y < 8 * pagesOf s p →
    y + len ≤ 8 * pagesOf s p →
    exec (.linev p x y len) s = .next (respond (lineVref p x y len s) codeOk 0#8)

/-- BRD inside the buffer answers the byte at (page, column) and changes nothing (R138). -/
def Obligations.BrdCompletes : Prop :=
  ∀ (s : State) (p x q : Nat), Running s → UsablePrinter s p → x < widthOf s p → q < pagesOf s p →
    exec (.brd p x q) s = .next { s with
      trace := s.trace ++ [.response ((memRead s p (q * widthOf s p + x)).zeroExtend 16)] }

/-- RDREG answers its register in RUN and in HALTED and changes nothing (R191). -/
def Obligations.RdregCompletes : Prop :=
  ∀ (s : State) (addr : Nat), addr < 256 →
    exec (.rdreg addr) s = .next { s with trace := s.trace ++ [.response ((regRead s addr).zeroExtend 16)] }

/-- GLYPH of a valid symbol on a usable printer leaves exactly the pixels of the closed form R116 (which the spec marks derived,
from R114, R115), whatever the buffer held,
answers the drawn width, and leaves every other byte, and all else, alone. -/
def Obligations.GlyphCompletes : Prop :=
  ∀ (s : State) (p sym : Nat), s.Inv → Running s → UsablePrinter s p → sym < 15 →
    ∃ t, exec (.glyph p sym) s = .next t ∧ SameControl s t ∧
      t.trace = s.trace ++ [.response (BitVec.ofNat 16 (drawnWidth (strokeOf s.params sym) (widthOf s p)))] ∧
      (∀ cx r, cx < widthOf s p → r < 8 * pagesOf s p →
        pix t p cx r = glyphPixel (strokeOf s.params sym) (drawnWidth (strokeOf s.params sym) (widthOf s p)) (pagesOf s p) cx r) ∧
      ∀ q i, q ≠ p ∨ widthOf s p * pagesOf s p ≤ i → memRead t q i = memRead s q i

/-- R120, an inference the spec marks as its own (from R116): for a drawn width of at least 3 the stroke set decoded from the pixels after GLYPH is the symbol's stroke code. -/
def Obligations.GlyphReadsBackAsItsStrokes : Prop :=
  ∀ (s t : State) (p sym : Nat), s.Inv → Running s → UsablePrinter s p → sym < 15 → 3 ≤ glyphWidth s p sym →
    exec (.glyph p sym) s = .next t → decodedStrokes t p (glyphWidth s p sym) = strokeOf s.params sym &&& 0x7F#8

/-- R113, which the spec marks derived (from R43): the drawn width is W/2 when bit 7 of the stroke code is set, else W, and lies in 1..W, W at most 255. -/
def Obligations.DrawnWidthIsHalfOrFull : Prop :=
  ∀ (s : State) (p sym : Nat), s.Inv → UsablePrinter s p →
    glyphWidth s p sym = (if (strokeOf s.params sym).getLsbD 7 = true then widthOf s p / 2 else widthOf s p) ∧
    1 ≤ glyphWidth s p sym ∧ glyphWidth s p sym ≤ widthOf s p ∧ widthOf s p ≤ 255

/-- PUSH of at most W columns emits P DrawPage events in ascending page order, event i carrying the buffer bytes
i*W .. i*W+len-1, and changes no state of SSGR (R153). -/
def Obligations.PushCompletes : Prop :=
  ∀ (s : State) (p col page len : Nat), Running s → UsablePrinter s p → len ≤ widthOf s p →
    exec (.push p col page len) s = .next { s with
      trace := s.trace ++ (List.range (pagesOf s p)).map (fun i => Output.event (.drawPage (page + i) col len
        ((List.range len).map fun k => memRead s p (i * widthOf s p + k)))) ++ [.response 0x0000#16] }

/-- PRINT of a valid symbol on a usable printer emits one DrawPage a page, top page first, of the drawn width, carrying the
glyph of the closed form R116 (marked derived), answers the drawn width, leaves the glyph in the buffer, and all else alone (R155). -/
def Obligations.PrintCompletes : Prop :=
  ∀ (s : State) (p col page sym : Nat), s.Inv → Running s → UsablePrinter s p → sym < 15 →
    ∃ t, exec (.print p col page sym) s = .next t ∧ SameControl s t ∧
      t.trace = s.trace ++ (glyphEvents s.params (widthOf s p) (pagesOf s p) sym col page).map Output.event ++
        [.response (BitVec.ofNat 16 (drawnWidth (strokeOf s.params sym) (widthOf s p)))] ∧
      (∀ cx r, cx < widthOf s p → r < 8 * pagesOf s p →
        pix t p cx r = glyphPixel (strokeOf s.params sym) (drawnWidth (strokeOf s.params sym) (widthOf s p)) (pagesOf s p) cx r) ∧
      ∀ q i, q ≠ p ∨ widthOf s p * pagesOf s p ≤ i → memRead t q i = memRead s q i

/-- PCLEAR of a usable printer emits one ClearPage for each of its P pages, top page first, and changes no state of SSGR (R157). -/
def Obligations.PclearCompletes : Prop :=
  ∀ (s : State) (p col page width : Nat), Running s → UsablePrinter s p →
    exec (.pclear p col page width) s = .next { s with
      trace := s.trace ++ (List.range (pagesOf s p)).map (fun i => Output.event (.clearPage (page + i) col width)) ++
        [.response 0x0000#16] }

/-- SETNUM on a usable field emits exactly the events of R176: the clear of its whole extent, each symbol of the number at its
column, the label aligned by its bottom page; it answers 0 and writes no buffer but those of its two printers. -/
def Obligations.SetnumCompletes : Prop :=
  ∀ (s : State) (f lbl : Nat) (v : Int), s.Inv → Running s → UsableField s f → lbl < 15 → FitsValue v →
    pagesOf s (desc s f).lp.toNat ≤ (desc s f).page.toNat + pagesOf s (desc s f).dp.toNat →
    ∃ t, exec (.setnum f lbl v) s = .next t ∧ SameControl s t ∧
      t.trace = s.trace ++ (fieldEvents s.params (ctx s (desc s f).dp.toNat) (ctx s (desc s f).lp.toNat) (desc s f) v lbl).map
        Output.event ++ [.response 0x0000#16] ∧
      ∀ q i, (q ≠ (desc s f).dp.toNat ∨ widthOf s q * pagesOf s q ≤ i) →
        (q ≠ (desc s f).lp.toNat ∨ widthOf s q * pagesOf s q ≤ i) → memRead t q i = memRead s q i

/-- R184, an inference the spec marks as its own (from R176, R159): after SETNUM the label printer's buffer holds the label glyph and, when the printers differ, the digit printer's holds
the glyph of the least significant digit. -/
def Obligations.SetnumLeavesLastGlyphs : Prop :=
  ∀ (s t : State) (f lbl : Nat) (v : Int), s.Inv → Running s → UsableField s f → lbl < 15 → FitsValue v →
    pagesOf s (desc s f).lp.toNat ≤ (desc s f).page.toNat + pagesOf s (desc s f).dp.toNat →
    exec (.setnum f lbl v) s = .next t →
    (∀ cx r, cx < widthOf s (desc s f).lp.toNat → r < 8 * pagesOf s (desc s f).lp.toNat →
      pix t (desc s f).lp.toNat cx r = glyphPixel (strokeOf s.params lbl) (glyphWidth s (desc s f).lp.toNat lbl)
        (pagesOf s (desc s f).lp.toNat) cx r) ∧
    ((desc s f).dp ≠ (desc s f).lp → ∀ cx r, cx < widthOf s (desc s f).dp.toNat → r < 8 * pagesOf s (desc s f).dp.toNat →
      pix t (desc s f).dp.toNat cx r = glyphPixel (strokeOf s.params (v.natAbs % 10))
        (glyphWidth s (desc s f).dp.toNat (v.natAbs % 10)) (pagesOf s (desc s f).dp.toNat) cx r)

/-- R183, an inference the spec marks as its own (from R176, R40): two states with the same stroke table, the same descriptor and the same geometry of its two printers get the same
events and the same response from the same SETNUM, whatever was drawn before and whatever the buffers hold. -/
def Obligations.SetnumKeepsNothingBetweenCalls : Prop :=
  ∀ (s1 s2 : State) (f lbl : Nat) (v : Int), s1.Inv → s2.Inv → Running s1 → Running s2 → s1.params = s2.params →
    UsableField s1 f → desc s1 f = desc s2 f → ctx s1 (desc s1 f).dp.toNat = ctx s2 (desc s1 f).dp.toNat →
    ctx s1 (desc s1 f).lp.toNat = ctx s2 (desc s1 f).lp.toNat → FitsValue v →
    ∃ t1 t2 out, exec (.setnum f lbl v) s1 = .next t1 ∧ exec (.setnum f lbl v) s2 = .next t2 ∧
      t1.trace = s1.trace ++ out ∧ t2.trace = s2.trace ++ out

/-- R173: Decompose gives an optional minus (symbol 10), then the decimal digits of |v| with the most significant first
and no leading zero, one to five of them, also for 0 and for -32768. -/
def Obligations.DecomposeGivesTheDecimalDigits : Prop :=
  ∀ v : Int, FitsValue v →
    ∃ ds : List Nat, decompose v = (if v < 0 then [10] else []) ++ ds ∧ (∀ d ∈ ds, d < 10) ∧
      ds.foldl (fun n d => 10 * n + d) 0 = v.natAbs ∧ 1 ≤ ds.length ∧ ds.length ≤ 5 ∧
      (2 ≤ ds.length → ds.head? ≠ some 0)

/-- R175, an inference the spec marks as its own (from R173, R174): the examples of Decompose. -/
def Obligations.DecomposeExamples : Prop :=
  decompose 0 = [0] ∧ decompose 7 = [7] ∧ decompose 10 = [1, 0] ∧ decompose 400 = [4, 0, 0] ∧
  decompose 32767 = [3, 2, 7, 6, 7] ∧ decompose (-5) = [10, 5] ∧ decompose (-15) = [10, 1, 5] ∧
  decompose (-32768) = [10, 3, 2, 7, 6, 8]

/-! ### The control registers -/

/-- R36 and R30 to R32: identification, parameters and the fault record at 0x00..0x0D. -/
def Obligations.SystemRegistersRead : Prop :=
  ∀ s : State, s.params.Legal →
    regRead s 0x00 = 0x7A#8 ∧ regRead s 0x01 = 0x10#8 ∧ (regRead s 0x02).toNat = s.params.nprn ∧
    (regRead s 0x03).toNat = s.params.nfld ∧ (regRead s 0x04).toNat + 256 * (regRead s 0x05).toNat = s.params.bufsz ∧
    regRead s 0x06 = 0x0F#8 ∧ (regRead s 0x07).toNat = s.params.maxp ∧
    (regRead s 0x08).toNat = (if s.fault = true then 1 else 0) ∧ (regRead s 0x09).toNat = s.fcode.toNat ∧
    (regRead s 0x0A).toNat = bits s.fcmd 7 0 ∧ (regRead s 0x0B).toNat = bits s.fcmd 15 8 ∧
    (regRead s 0x0C).toNat = bits s.fcmd 23 16 ∧ (regRead s 0x0D).toNat = bits s.fcmd 31 24

/-- R33, R34, R35: the stroke ROM window, the printer context window and the field descriptor window, with the entries of
contexts and fields the block does not have reading 0. -/
def Obligations.WindowRegistersRead : Prop :=
  ∀ s : State,
    (∀ sym < 15, regRead s (0x10 + sym) = strokeOf s.params sym) ∧ regRead s 0x1F = 0#8 ∧
    (∀ p < 16, ∀ k < 4, regRead s (0x20 + 4 * p + k) =
      if s.params.nprn ≤ p then 0#8
      else if k = 0 then (if (ctx s p).valid then 0x01#8 else 0x00#8)
      else if k = 1 then (ctx s p).w else if k = 2 then (ctx s p).pages else 0#8) ∧
    (∀ f < 16, ∀ k < 8, (regRead s (0x80 + 8 * f + k)).toNat =
      if s.params.nfld ≤ f then 0
      else if k = 0 then (if (desc s f).va then 1 else 0) + (if (desc s f).vb then 2 else 0)
      else if k = 1 then (desc s f).dp.toNat else if k = 2 then (desc s f).lp.toNat
      else if k = 3 then (desc s f).x.toNat else if k = 4 then (desc s f).page.toNat
      else if k = 5 then (desc s f).maxw.toNat else 0)

/-- R37: the addresses not named in the map read 0x00 and cause no fault. -/
def Obligations.UnnamedRegistersReadZero : Prop :=
  ∀ (s : State) (addr : Nat), addr = 0x0E ∨ addr = 0x0F ∨ (0x60 ≤ addr ∧ addr < 0x80) →
    exec (.rdreg addr) s = .next { s with trace := s.trace ++ [.response 0x0000#16] }

/-! ### Invariants -/

/-- R41, and R43, which the spec marks derived: the reset state (of the default build, log 2) meets the invariant. -/
def Obligations.ResetMeetsTheInvariant : Prop := State.reset.Inv

/-- R43 (a), (b), (d) (which the spec marks derived), R50, R55, R60, R181: every step from every state that meets the invariant gives a state that meets it. -/
def Obligations.EveryStepKeepsTheInvariant : Prop :=
  ∀ s t : State, s.Inv → step s = .next t → t.Inv

/-- R20, R26: the parameters, the stroke table among them, are constants: no step changes them, not even a reset. -/
def Obligations.NoStepChangesTheParameters : Prop :=
  ∀ s t : State, step s = .next t → t.params = s.params

/-- R21, R23, R150, R170: what a construction has set stays as it is until reset. -/
def Obligations.ConstructionIsFinalUntilReset : Prop :=
  ∀ s t : State, s.inputs.head? ≠ some .reset → step s = .next t →
    (∀ p, (ctx s p).valid = true → ctx t p = ctx s p) ∧
    (∀ f, (desc s f).va = true → (desc t f).va = true ∧ (desc t f).dp = (desc s f).dp ∧ (desc t f).lp = (desc s f).lp) ∧
    (∀ f, (desc s f).vb = true → (desc t f).vb = true ∧ (desc t f).x = (desc s f).x ∧ (desc t f).page = (desc s f).page ∧
      (desc t f).maxw = (desc s f).maxw)

/-! ### The picture on the reference display (R66) -/

/-- R155, R239: on a reference display of any size (R10, R66) PRINT replaces columns col..col+w-1 of pages
page..page+P-1 by the glyph and leaves every other byte as it was; the right half under a narrow glyph keeps its old content. -/
def Obligations.PrintReplacesExactlyItsRectangle : Prop :=
  ∀ (d : Config.SinkSize) (s t : State) (p col page sym : Nat) (old : Byte) (q c : Nat), s.Inv → Running s →
    UsablePrinter s p → sym < 15 → exec (.print p col page sym) s = .next t → InSink d q c →
    let w := drawnWidth (strokeOf s.params sym) (widthOf s p)
    sinkAfter d old ((events t).drop (events s).length) q c =
      if page ≤ q ∧ q < page + pagesOf s p ∧ col ≤ c ∧ c < col + w then
        glyphByte (strokeOf s.params sym) w (pagesOf s p) (q - page) (c - col)
      else old

/-- R160, R177: on a reference display of any size SETNUM erases what its field showed before: inside the
field's rectangle the picture afterwards does not depend on the picture before. -/
def Obligations.SetnumErasesItsField : Prop :=
  ∀ (d : Config.SinkSize) (s t : State) (f lbl : Nat) (v : Int) (old old' : Byte) (q c : Nat), s.Inv → Running s →
    UsableField s f → lbl < 15 → FitsValue v →
    pagesOf s (desc s f).lp.toNat ≤ (desc s f).page.toNat + pagesOf s (desc s f).dp.toNat → exec (.setnum f lbl v) s = .next t → InSink d q c → (desc s f).page.toNat ≤ q →
    q < (desc s f).page.toNat + pagesOf s (desc s f).dp.toNat → (desc s f).x.toNat ≤ c →
    c < (desc s f).x.toNat + (desc s f).maxw.toNat →
    sinkAfter d old ((events t).drop (events s).length) q c = sinkAfter d old' ((events t).drop (events s).length) q c
end

