-- ==== Sys2Proof/Machine/Assembler.lean ====
section
/-! DEFINITION. The assembler of R90 and R91: a mnemonic and its operands, in the order of the contract, to the command. It is
a tool of the spec's test vectors, not hardware (DESIGN CHOICE, log 18, safe); no other file of the model uses it but the tests. -/

namespace Sys2Proof.Machine

/-- An operand as written: `p<n>`, `f<n>`, or an integer (R90). -/
inductive AsmOperand where
  | printer (n : Nat)
  | field (n : Nat)
  | num (v : Int)
  deriving DecidableEq, Repr

/-- An operand that R90 admits: a selector `p0`..`p15` or `f0`..`f15`, an integer that its field holds. -/
def AsmOperand.admitted : AsmOperand → Bool
  | .printer n => decide (FitsSelector n)
  | .field n => decide (FitsSelector n)
  | .num v => decide (0 ≤ v ∧ v < 256)

/-- The operands of a line are admitted: each is, but SETNUM's value, which may be negative and has 16 bits (R90, R83). -/
def operandsAdmitted (mnemonic : String) (ops : List AsmOperand) : Bool :=
  match mnemonic, ops with
  | "SETNUM", [f, .num value, lbl] => f.admitted && decide (FitsValue value) && lbl.admitted
  | _, _ => ops.all AsmOperand.admitted

/-- The command a line's admitted operands spell (R90); `none` where the mnemonic does not take these operands. Operand order
is the contract's, which for PRINT and SETNUM is not the word's. -/
def spellLine (mnemonic : String) (ops : List AsmOperand) : Option Instr :=
  match mnemonic, ops with
  | "NOP", [] => some .nop
  | "PCFG", [.printer p, .num w, .num pages] => some (.pcfg p w.toNat pages.toNat)
  | "FCFGA", [.field f, .printer dp, .printer lp] => some (.fcfga f dp lp)
  | "FCFGB", [.field f, .num x, .num page, .num maxw] => some (.fcfgb f x.toNat page.toNat maxw.toNat)
  | "BCLR", [.printer p] => some (.bclr p)
  | "LINEH", [.printer p, .num x, .num y, .num len] => some (.lineh p x.toNat y.toNat len.toNat)
  | "LINEV", [.printer p, .num x, .num y, .num len] => some (.linev p x.toNat y.toNat len.toNat)
  | "GLYPH", [.printer p, .num sym] => some (.glyph p sym.toNat)
  | "PUSH", [.printer p, .num col, .num page, .num len] => some (.push p col.toNat page.toNat len.toNat)
  | "PRINT", [.printer p, .num sym, .num col, .num page] => some (.print p col.toNat page.toNat sym.toNat)
  | "PCLEAR", [.printer p, .num col, .num page, .num width] => some (.pclear p col.toNat page.toNat width.toNat)
  | "SETNUM", [.field f, .num value, .num lbl] => some (.setnum f lbl.toNat value)
  | "BRD", [.printer p, .num x, .num page] => some (.brd p x.toNat page.toNat)
  | "RDREG", [.num addr] => some (.rdreg addr.toNat)
  | _, _ => none

/-- The assembler's line as a command (R90). DESIGN CHOICE (log 19): an operand that R90 does not admit has no behaviour in
the spec (a negative integer other than SETNUM's value, `p16` or `f16` and above, an operand above 255, a SETNUM value outside
-32768..32767), and so has a mnemonic with other operands than its own; such a line is no command here, `none`. Safe: no
meaning uses the assembler, and it never gives a command that is not well formed. -/
def assemble (mnemonic : String) (ops : List AsmOperand) : Option Instr :=
  if operandsAdmitted mnemonic ops then spellLine mnemonic ops else none

/-- A line of assembler: a command, or the directive `.word` (R90, R91). -/
inductive AsmLine where
  | command (mnemonic : String) (ops : List AsmOperand)
  | word (cw : Word)
  deriving DecidableEq, Repr

/-- The command word of a line; `.word` places its word as it stands, also an illegal one (R91). -/
def assembleLine : AsmLine → Option Word
  | .command mnemonic ops => (assemble mnemonic ops).map encode
  | .word cw => some cw

/-- The symbol names of R91; SYM_H, SYM_C, SYM_U, SYM_P name the letters of the default stroke table (R28). -/
def symbolName (name : String) : Option Nat :=
  match name with
  | "SYM_0" => some 0
  | "SYM_1" => some 1
  | "SYM_2" => some 2
  | "SYM_3" => some 3
  | "SYM_4" => some 4
  | "SYM_5" => some 5
  | "SYM_6" => some 6
  | "SYM_7" => some 7
  | "SYM_8" => some 8
  | "SYM_9" => some 9
  | "SYM_MINUS" => some 10
  | "SYM_U0" => some 11
  | "SYM_U1" => some 12
  | "SYM_U2" => some 13
  | "SYM_U3" => some 14
  | "SYM_H" => some 11
  | "SYM_C" => some 12
  | "SYM_U" => some 13
  | "SYM_P" => some 14
  | _ => none

end Sys2Proof.Machine
end

