-- ==== Sys2Proof/Laws/Assembler.lean ====
section
/-! SUPPORT. What the assembler can answer. -/

namespace Sys2Proof.Machine

theorem wellFormed_of_spellLine {mnemonic : String} {ops : List AsmOperand} {i : Instr}
    (ha : operandsAdmitted mnemonic ops = true) (h : spellLine mnemonic ops = some i) : i.WellFormed := by
  unfold spellLine at h
  split at h <;> cases h <;> simp_all [operandsAdmitted, AsmOperand.admitted] <;> omega

/-- The assembler gives well-formed commands only. -/
theorem wellFormed_of_assemble {mnemonic : String} {ops : List AsmOperand} {i : Instr}
    (h : assemble mnemonic ops = some i) : i.WellFormed := by
  unfold assemble at h
  split at h
  · exact wellFormed_of_spellLine ‹_› h
  · cases h

end Sys2Proof.Machine
end

