-- ==== Sys2Proof/Laws/State.lean ====
section
/-! SUPPORT. One lemma per field per update of State, so that no later proof unfolds a record update; what the register-file
views read after each update; and the frame of the operations that change scratch buffers only. -/

namespace Sys2Proof.Machine

section
variable (s : State) (p : Nat) (m : Memory)
@[simp] theorem setBuf_params : (setBuf s p m).params = s.params := rfl
@[simp] theorem setBuf_pc : (setBuf s p m).pc = s.pc := rfl
@[simp] theorem setBuf_buf : (setBuf s p m).buf = s.buf.set p m := rfl
@[simp] theorem setBuf_fd : (setBuf s p m).fd = s.fd := rfl
@[simp] theorem setBuf_fault : (setBuf s p m).fault = s.fault := rfl
@[simp] theorem setBuf_fcode : (setBuf s p m).fcode = s.fcode := rfl
@[simp] theorem setBuf_fcmd : (setBuf s p m).fcmd = s.fcmd := rfl
@[simp] theorem setBuf_epoch : (setBuf s p m).epoch = s.epoch := rfl
@[simp] theorem setBuf_inputs : (setBuf s p m).inputs = s.inputs := rfl
@[simp] theorem setBuf_trace : (setBuf s p m).trace = s.trace := rfl
end

section
variable (s : State) (p : Nat) (c : PrinterCtx)
@[simp] theorem setCtx_params : (setCtx s p c).params = s.params := rfl
@[simp] theorem setCtx_pc : (setCtx s p c).pc = s.pc.set p c := rfl
@[simp] theorem setCtx_buf : (setCtx s p c).buf = s.buf := rfl
@[simp] theorem setCtx_fd : (setCtx s p c).fd = s.fd := rfl
@[simp] theorem setCtx_fault : (setCtx s p c).fault = s.fault := rfl
@[simp] theorem setCtx_fcode : (setCtx s p c).fcode = s.fcode := rfl
@[simp] theorem setCtx_fcmd : (setCtx s p c).fcmd = s.fcmd := rfl
@[simp] theorem setCtx_epoch : (setCtx s p c).epoch = s.epoch := rfl
@[simp] theorem setCtx_inputs : (setCtx s p c).inputs = s.inputs := rfl
@[simp] theorem setCtx_trace : (setCtx s p c).trace = s.trace := rfl
end

section
variable (s : State) (f : Nat) (d : FieldDesc)
@[simp] theorem setDesc_params : (setDesc s f d).params = s.params := rfl
@[simp] theorem setDesc_pc : (setDesc s f d).pc = s.pc := rfl
@[simp] theorem setDesc_buf : (setDesc s f d).buf = s.buf := rfl
@[simp] theorem setDesc_fd : (setDesc s f d).fd = s.fd.set f d := rfl
@[simp] theorem setDesc_fault : (setDesc s f d).fault = s.fault := rfl
@[simp] theorem setDesc_fcode : (setDesc s f d).fcode = s.fcode := rfl
@[simp] theorem setDesc_fcmd : (setDesc s f d).fcmd = s.fcmd := rfl
@[simp] theorem setDesc_epoch : (setDesc s f d).epoch = s.epoch := rfl
@[simp] theorem setDesc_inputs : (setDesc s f d).inputs = s.inputs := rfl
@[simp] theorem setDesc_trace : (setDesc s f d).trace = s.trace := rfl
end

section
variable (s : State) (es : List Event)
@[simp] theorem emitAll_params : (emitAll s es).params = s.params := rfl
@[simp] theorem emitAll_pc : (emitAll s es).pc = s.pc := rfl
@[simp] theorem emitAll_buf : (emitAll s es).buf = s.buf := rfl
@[simp] theorem emitAll_fd : (emitAll s es).fd = s.fd := rfl
@[simp] theorem emitAll_fault : (emitAll s es).fault = s.fault := rfl
@[simp] theorem emitAll_fcode : (emitAll s es).fcode = s.fcode := rfl
@[simp] theorem emitAll_fcmd : (emitAll s es).fcmd = s.fcmd := rfl
@[simp] theorem emitAll_epoch : (emitAll s es).epoch = s.epoch := rfl
@[simp] theorem emitAll_inputs : (emitAll s es).inputs = s.inputs := rfl
@[simp] theorem emitAll_trace : (emitAll s es).trace = s.trace ++ es.map Output.event := rfl
end

section
variable (s : State) (code : BitVec 4) (v : Byte)
@[simp] theorem respond_params : (respond s code v).params = s.params := rfl
@[simp] theorem respond_pc : (respond s code v).pc = s.pc := rfl
@[simp] theorem respond_buf : (respond s code v).buf = s.buf := rfl
@[simp] theorem respond_fd : (respond s code v).fd = s.fd := rfl
@[simp] theorem respond_fault : (respond s code v).fault = s.fault := rfl
@[simp] theorem respond_fcode : (respond s code v).fcode = s.fcode := rfl
@[simp] theorem respond_fcmd : (respond s code v).fcmd = s.fcmd := rfl
@[simp] theorem respond_epoch : (respond s code v).epoch = s.epoch := rfl
@[simp] theorem respond_inputs : (respond s code v).inputs = s.inputs := rfl
@[simp] theorem respond_trace : (respond s code v).trace = s.trace ++ [.response (responseWord code v)] := rfl
end

/-! ### Views of the register files -/

section
variable (s : State) (p : Nat)
@[simp] theorem ctx_setBuf (k : Nat) (m : Memory) : ctx (setBuf s k m) p = ctx s p := rfl
@[simp] theorem widthOf_setBuf (k : Nat) (m : Memory) : widthOf (setBuf s k m) p = widthOf s p := rfl
@[simp] theorem pagesOf_setBuf (k : Nat) (m : Memory) : pagesOf (setBuf s k m) p = pagesOf s p := rfl
@[simp] theorem desc_setBuf (k : Nat) (m : Memory) : desc (setBuf s k m) p = desc s p := rfl
@[simp] theorem desc_setCtx (k : Nat) (c : PrinterCtx) : desc (setCtx s k c) p = desc s p := rfl
@[simp] theorem bufOf_setCtx (k : Nat) (c : PrinterCtx) : bufOf (setCtx s k c) p = bufOf s p := rfl
@[simp] theorem ctx_setDesc (k : Nat) (d : FieldDesc) : ctx (setDesc s k d) p = ctx s p := rfl
@[simp] theorem widthOf_setDesc (k : Nat) (d : FieldDesc) : widthOf (setDesc s k d) p = widthOf s p := rfl
@[simp] theorem pagesOf_setDesc (k : Nat) (d : FieldDesc) : pagesOf (setDesc s k d) p = pagesOf s p := rfl
@[simp] theorem bufOf_setDesc (k : Nat) (d : FieldDesc) : bufOf (setDesc s k d) p = bufOf s p := rfl
@[simp] theorem ctx_emitAll (es : List Event) : ctx (emitAll s es) p = ctx s p := rfl
@[simp] theorem widthOf_emitAll (es : List Event) : widthOf (emitAll s es) p = widthOf s p := rfl
@[simp] theorem pagesOf_emitAll (es : List Event) : pagesOf (emitAll s es) p = pagesOf s p := rfl
@[simp] theorem desc_emitAll (es : List Event) : desc (emitAll s es) p = desc s p := rfl
@[simp] theorem bufOf_emitAll (es : List Event) : bufOf (emitAll s es) p = bufOf s p := rfl
@[simp] theorem ctx_respond (code : BitVec 4) (v : Byte) : ctx (respond s code v) p = ctx s p := rfl
@[simp] theorem widthOf_respond (code : BitVec 4) (v : Byte) : widthOf (respond s code v) p = widthOf s p := rfl
@[simp] theorem pagesOf_respond (code : BitVec 4) (v : Byte) : pagesOf (respond s code v) p = pagesOf s p := rfl
@[simp] theorem desc_respond (code : BitVec 4) (v : Byte) : desc (respond s code v) p = desc s p := rfl
@[simp] theorem bufOf_respond (code : BitVec 4) (v : Byte) : bufOf (respond s code v) p = bufOf s p := rfl
@[simp] theorem memRead_setCtx (k : Nat) (c : PrinterCtx) (i : Nat) : memRead (setCtx s k c) p i = memRead s p i := rfl
@[simp] theorem memRead_setDesc (k : Nat) (d : FieldDesc) (i : Nat) : memRead (setDesc s k d) p i = memRead s p i := rfl
@[simp] theorem memRead_emitAll (es : List Event) (i : Nat) : memRead (emitAll s es) p i = memRead s p i := rfl
@[simp] theorem memRead_respond (code : BitVec 4) (v : Byte) (i : Nat) : memRead (respond s code v) p i = memRead s p i := rfl
end

end Sys2Proof.Machine
end

