-- ==== Sys2Proof/Laws/Command.lean ====
section
/-! SUPPORT. The frame of a command (R202, R209): discarded, faulted by its first failing check, or completed; and exec as
that frame for every command but RDREG. -/

namespace Sys2Proof.Machine

section
variable {i : Instr} {checks : List (Bool × FaultCode)} {effect : State → State × Byte} {s : State}

theorem command_halted (h : s.fault = true) : command i checks effect s = discard s := by
  simp [command, h]

theorem command_faults {code : FaultCode} (h : Running s) (hf : firstFault checks = some code) :
    command i checks effect s = raiseFault code (encode i) s := by
  simp [command, h, hf]

theorem command_completes (h : Running s) (hf : firstFault checks = none) :
    command i checks effect s = respond (effect s).1 codeOk (effect s).2 := by
  simp [command, h, hf]

/-- Everything a command can do. -/
theorem command_cases (i : Instr) (checks : List (Bool × FaultCode)) (effect : State → State × Byte) (s : State) :
    (s.fault = true ∧ command i checks effect s = discard s) ∨
    (Running s ∧ ∃ code, firstFault checks = some code ∧ command i checks effect s = raiseFault code (encode i) s) ∨
    (Running s ∧ firstFault checks = none ∧ command i checks effect s = respond (effect s).1 codeOk (effect s).2) := by
  by_cases h : s.fault = true
  · exact .inl ⟨h, command_halted h⟩
  · have h : Running s := by simpa using h
    cases hf : firstFault checks with
    | none => exact .inr (.inr ⟨h, rfl, command_completes h hf⟩)
    | some code => exact .inr (.inl ⟨h, code, rfl, command_faults h hf⟩)

end

section
variable (code : FaultCode) (cw : Word) (s : State)
@[simp] theorem raiseFault_params : (raiseFault code cw s).params = s.params := rfl
@[simp] theorem raiseFault_pc : (raiseFault code cw s).pc = s.pc := rfl
@[simp] theorem raiseFault_buf : (raiseFault code cw s).buf = s.buf := rfl
@[simp] theorem raiseFault_fd : (raiseFault code cw s).fd = s.fd := rfl
@[simp] theorem raiseFault_fault : (raiseFault code cw s).fault = true := rfl
@[simp] theorem raiseFault_fcode : (raiseFault code cw s).fcode = code.number := rfl
@[simp] theorem raiseFault_fcmd : (raiseFault code cw s).fcmd = cw := rfl
@[simp] theorem raiseFault_epoch : (raiseFault code cw s).epoch = s.epoch := rfl
@[simp] theorem raiseFault_inputs : (raiseFault code cw s).inputs = s.inputs := rfl
@[simp] theorem raiseFault_trace :
    (raiseFault code cw s).trace = s.trace ++ [.response (responseWord code.number 0#8)] := rfl
end

theorem FaultCode.number_ne_zero (code : FaultCode) : code.number ≠ 0#4 := by cases code <;> decide

theorem FaultCode.number_le (code : FaultCode) : code.number.toNat ≤ 8 := by cases code <;> decide

theorem firstFault_cons (failed : Bool) (code : FaultCode) (rest : List (Bool × FaultCode)) :
    firstFault ((failed, code) :: rest) = if failed then some code else firstFault rest := rfl

/-- The checks of a command that needs a usable printer pass exactly on one. -/
theorem firstFault_usablePrinter {s : State} {p : Nat} (h : UsablePrinter s p) (rest : List (Bool × FaultCode)) :
    firstFault (usablePrinter s p ++ rest) = firstFault rest := by
  have : ¬ s.params.nprn ≤ p := by have := h.1; omega
  simp [usablePrinter, printerExists, printerConfigured, firstFault_cons, h.2, this]

/-- Every command but RDREG is its checks and its effect in the frame of R209. -/
theorem exec_eq_command (i : Instr) (s : State) :
    (∃ addr, i = .rdreg addr) ∨ ∃ checks effect, exec i s = .next (command i checks effect s) := by
  cases i with
  | rdreg addr => exact .inl ⟨addr, rfl⟩
  | _ => exact .inr ⟨_, _, rfl⟩

end Sys2Proof.Machine
end

