-- ==== Sys2Proof/Laws/Decode.lean ====
section
/-! SUPPORT. The five fields of a command word (R81): packing then reading a field gives it back, reading then packing gives
the word back, and the 16-bit value field (R83). -/

namespace Sys2Proof

section
variable {op sel a b c : Nat} (hop : op < 16) (hsel : sel < 16) (ha : a < 256) (hb : b < 256) (hc : c < 256)
include hop hsel ha hb hc

theorem toNat_packFields :
    (packFields op sel a b c).toNat = op * 268435456 + sel * 16777216 + a * 65536 + b * 256 + c := by
  unfold packFields
  rw [BitVec.toNat_ofNat]
  omega

theorem bits_packFields_op : bits (packFields op sel a b c) 31 28 = op := by
  unfold bits; rw [toNat_packFields hop hsel ha hb hc]; omega

theorem bits_packFields_sel : bits (packFields op sel a b c) 27 24 = sel := by
  unfold bits; rw [toNat_packFields hop hsel ha hb hc]; omega

theorem bits_packFields_a : bits (packFields op sel a b c) 23 16 = a := by
  unfold bits; rw [toNat_packFields hop hsel ha hb hc]; omega

theorem bits_packFields_b : bits (packFields op sel a b c) 15 8 = b := by
  unfold bits; rw [toNat_packFields hop hsel ha hb hc]; omega

theorem bits_packFields_c : bits (packFields op sel a b c) 7 0 = c := by
  unfold bits; rw [toNat_packFields hop hsel ha hb hc]; omega

theorem decode_packFields : decode (packFields op sel a b c) = decodeFields op sel a b c := by
  unfold decode
  rw [bits_packFields_op hop hsel ha hb hc, bits_packFields_sel hop hsel ha hb hc, bits_packFields_a hop hsel ha hb hc,
    bits_packFields_b hop hsel ha hb hc, bits_packFields_c hop hsel ha hb hc]

end

theorem packFields_bits (w : Word) :
    packFields (bits w 31 28) (bits w 27 24) (bits w 23 16) (bits w 15 8) (bits w 7 0) = w := by
  have h := w.isLt
  apply BitVec.eq_of_toNat_eq
  unfold packFields bits
  rw [BitVec.toNat_ofNat]
  omega

theorem bits_lt (w : Word) (hi lo : Nat) : bits w hi lo < 2 ^ (hi + 1 - lo) := Nat.mod_lt _ (Nat.two_pow_pos _)

/-- A mask of `n` ones from bit `lo` picks nothing exactly when that field is 0: the must-be-zero test of R85. -/
theorem and_fieldMask_eq_zero (w : Word) (n lo : Nat) :
    w &&& BitVec.ofNat 32 ((2 ^ n - 1) * 2 ^ lo) = 0#32 ↔ ∀ i < 32, lo ≤ i → i < lo + n → w.getLsbD i = false := by
  have key : ∀ i, i < 32 → (BitVec.ofNat 32 ((2 ^ n - 1) * 2 ^ lo)).getLsbD i = decide (lo ≤ i ∧ i < lo + n) := by
    intro i hi
    rw [BitVec.getLsbD_ofNat, Nat.testBit_mul_two_pow, Nat.testBit_two_pow_sub_one, Bool.eq_iff_iff]
    simp only [Bool.and_eq_true, decide_eq_true_eq]
    omega
  constructor
  · intro h i hi h1 h2
    have := congrArg (fun v => v.getLsbD i) h
    simp only [BitVec.getLsbD_and, key i hi, BitVec.getLsbD_zero] at this
    simpa [h1, h2] using this
  · intro h
    refine BitVec.eq_of_getLsbD_eq fun i hi => ?_
    rw [BitVec.getLsbD_and, key i hi, BitVec.getLsbD_zero]
    by_cases hc : lo ≤ i ∧ i < lo + n
    · rw [h i hi hc.1 hc.2, Bool.false_and]
    · rw [decide_eq_false hc, Bool.and_false]

theorem bits_eq_zero (w : Word) (hi lo : Nat) (h : lo ≤ hi) (h' : hi < 32) :
    bits w hi lo = 0 ↔ ∀ i < 32, lo ≤ i → i < lo + (hi + 1 - lo) → w.getLsbD i = false := by
  have key : ∀ j, (bits w hi lo).testBit j = (decide (j < hi + 1 - lo) && w.getLsbD (lo + j)) := by
    intro j
    unfold bits
    rw [Nat.testBit_mod_two_pow, Nat.testBit_div_two_pow, BitVec.getLsbD, Nat.add_comm lo j]
  constructor
  · intro hb i _ h1 h2
    have := key (i - lo)
    rw [hb, Nat.zero_testBit, decide_eq_true (by omega), Bool.true_and, show lo + (i - lo) = i by omega] at this
    exact this.symm
  · intro hall
    refine Nat.eq_of_testBit_eq fun j => ?_
    rw [key, Nat.zero_testBit]
    by_cases hj : j < hi + 1 - lo
    · rw [hall (lo + j) (by omega) (by omega) (by omega), Bool.and_false]
    · rw [decide_eq_false hj, Bool.false_and]

/-- The mask of one field `w[hi:lo]` picks nothing exactly when the field is 0. -/
theorem and_mask_eq_zero (w : Word) (hi lo : Nat) (h : lo ≤ hi) (h' : hi < 32) :
    w &&& BitVec.ofNat 32 ((2 ^ (hi + 1 - lo) - 1) * 2 ^ lo) = 0#32 ↔ bits w hi lo = 0 :=
  (and_fieldMask_eq_zero ..).trans (bits_eq_zero w hi lo h h').symm

/-- A mask made of two picks nothing exactly when both do. -/
theorem and_or_eq_zero (w m m' : Word) : w &&& (m ||| m') = 0#32 ↔ w &&& m = 0#32 ∧ w &&& m' = 0#32 := by
  rw [BitVec.and_or_distrib_left]
  exact BitVec.or_eq_zero_iff

/-! The must-be-zero masks of R85, each as the fields it covers. -/

theorem mask_c (w : Word) : w &&& 0x000000FF#32 = 0#32 ↔ bits w 7 0 = 0 := and_mask_eq_zero w 7 0 (by decide) (by decide)

theorem mask_b (w : Word) : w &&& 0x0000FF00#32 = 0#32 ↔ bits w 15 8 = 0 := and_mask_eq_zero w 15 8 (by decide) (by decide)

theorem mask_a (w : Word) : w &&& 0x00FF0000#32 = 0#32 ↔ bits w 23 16 = 0 := and_mask_eq_zero w 23 16 (by decide) (by decide)

theorem mask_sel (w : Word) : w &&& 0x0F000000#32 = 0#32 ↔ bits w 27 24 = 0 :=
  and_mask_eq_zero w 27 24 (by decide) (by decide)

theorem mask_bc (w : Word) : w &&& 0x0000FFFF#32 = 0#32 ↔ bits w 15 8 + bits w 7 0 = 0 := by
  rw [show 0x0000FFFF#32 = 0x0000FF00#32 ||| 0x000000FF#32 from rfl, and_or_eq_zero, mask_b, mask_c]
  omega

theorem mask_ab (w : Word) : w &&& 0x00FFFF00#32 = 0#32 ↔ bits w 23 16 + bits w 15 8 = 0 := by
  rw [show 0x00FFFF00#32 = 0x00FF0000#32 ||| 0x0000FF00#32 from rfl, and_or_eq_zero, mask_a, mask_b]
  omega

theorem mask_abc (w : Word) : w &&& 0x00FFFFFF#32 = 0#32 ↔ bits w 23 16 + bits w 15 8 + bits w 7 0 = 0 := by
  rw [show 0x00FFFFFF#32 = 0x00FFFF00#32 ||| 0x000000FF#32 from rfl, and_or_eq_zero, mask_ab, mask_c]
  omega

theorem mask_sel_bc (w : Word) : w &&& 0x0F00FFFF#32 = 0#32 ↔ bits w 27 24 + bits w 15 8 + bits w 7 0 = 0 := by
  rw [show 0x0F00FFFF#32 = 0x0F000000#32 ||| 0x0000FFFF#32 from rfl, and_or_eq_zero, mask_sel, mask_bc]
  omega

theorem mask_all (w : Word) :
    w &&& 0x0FFFFFFF#32 = 0#32 ↔ bits w 27 24 + bits w 23 16 + bits w 15 8 + bits w 7 0 = 0 := by
  rw [show 0x0FFFFFFF#32 = 0x0F000000#32 ||| 0x00FFFFFF#32 from rfl, and_or_eq_zero, mask_sel, mask_abc]
  omega

theorem sext16_field16 (v : Int) (h : FitsValue v) : sext16 (field16 v) = v := by
  have := h.1
  have := h.2
  unfold sext16 field16
  split <;> omega

theorem field16_sext16 (n : Nat) (h : n < 65536) : field16 (sext16 n) = n := by
  unfold sext16 field16
  split <;> omega

theorem field16_lt (v : Int) : field16 v < 65536 := by
  unfold field16; omega

theorem fitsValue_sext16 (n : Nat) (h : n < 65536) : FitsValue (sext16 n) := by
  unfold sext16
  split <;> constructor <;> omega

end Sys2Proof
end

