-- ==== Sys2Proof/Laws/Display.lean ====
section
/-! SUPPORT. What the reference display sink does with a sequence of events (R66). -/

namespace Sys2Proof.Machine

theorem sinkAfter_append (d : Config.SinkSize) (old : Byte) (es es' : List Event) (page col : Nat) :
    sinkAfter d old (es ++ es') page col = sinkAfter d (sinkAfter d old es page col) es' page col := by
  unfold sinkAfter
  rw [List.foldl_append]

/-- An event that does not reach a position leaves its byte. -/
theorem sinkEvent_of_not_reaches {d : Config.SinkSize} {page col q c len : Nat} (h : ¬ Reaches d page col q c len) (old : Byte)
    (bytes : List Byte) :
    sinkEvent d page col old (.drawPage q c len bytes) = old ∧ sinkEvent d page col old (.clearPage q c len) = old :=
  ⟨if_neg h, if_neg h⟩

/-- Events none of which changes the byte leave it. -/
theorem sinkAfter_of_forall {d : Config.SinkSize} {page col : Nat} {es : List Event}
    (h : ∀ e ∈ es, ∀ old, sinkEvent d page col old e = old) (old : Byte) : sinkAfter d old es page col = old := by
  unfold sinkAfter
  induction es with
  | nil => rfl
  | cons e rest ih => rw [List.foldl_cons, h e (by simp), ih fun e' he => h e' (by simp [he])]

/-- One event a page, top page first: only the event of the position's own page counts. -/
theorem sinkAfter_pages {d : Config.SinkSize} {f : Nat → Event} {n page q c : Nat} (hq : page ≤ q) (hn : q < page + n)
    (h : ∀ i old, page + i ≠ q → sinkEvent d q c old (f i) = old) (old : Byte) :
    sinkAfter d old ((List.range n).map f) q c = sinkEvent d q c old (f (q - page)) := by
  obtain ⟨k, rfl⟩ : ∃ k, q = page + k := ⟨q - page, by omega⟩
  obtain ⟨m, rfl⟩ : ∃ m, n = k + 1 + m := ⟨n - (k + 1), by omega⟩
  rw [List.range_add, List.map_append, sinkAfter_append, List.range_succ, List.map_append, sinkAfter_append,
    show page + k - page = k by omega, sinkAfter_of_forall (es := (List.range k).map f), sinkAfter_of_forall]
  · rfl
  · intro e he old
    simp only [List.mem_map, List.mem_range] at he
    obtain ⟨i, ⟨j, hj, rfl⟩, rfl⟩ := he
    exact h _ _ (by omega)
  · intro e he old
    obtain ⟨i, hi, rfl⟩ := List.mem_map.mp he
    have := List.mem_range.mp hi
    exact h _ _ (by omega)

end Sys2Proof.Machine
end

