-- ==== Sys2Proof/Laws/Memory.lean ====
section
/-! SUPPORT. The laws of the scratch buffers: read after write, the canonical form kept by every memory operation, equal
buffers are equal lists, and what MemOr and MemZero do to every byte (R53). -/

namespace Sys2Proof.Machine

/-! ### Lists of cells -/

theorem Memory.byteAt_write (m : Memory) (i : Nat) (v : Byte) (j : Nat) :
    (m.write i v).byteAt j = if j = i then some v else m.byteAt j := by
  induction m with
  | nil => simp [Memory.write, Memory.byteAt, eq_comm]
  | cons cell rest ih =>
    obtain ⟨a, b⟩ := cell
    simp only [Memory.write]
    split
    · simp only [Memory.byteAt]; grind
    · split
      · simp only [Memory.byteAt]; grind
      · simp only [Memory.byteAt, ih]; grind

theorem Memory.mem_write {m : Memory} {i : Nat} {v : Byte} {cell : Host.Cell} (h : cell ∈ m.write i v) :
    cell = (i, v) ∨ cell ∈ m := by
  induction m with
  | nil => simpa [Memory.write] using h
  | cons c rest ih =>
    obtain ⟨a, b⟩ := c
    simp only [Memory.write] at h
    split at h
    · grind
    · split at h
      · grind
      · grind

theorem Memory.wf_write {m : Memory} (h : m.wf) (i : Nat) (v : Byte) : (m.write i v).wf := by
  induction m with
  | nil => simp [Memory.write, Memory.wf]
  | cons cell rest ih =>
    obtain ⟨a, b⟩ := cell
    obtain ⟨h1, h2⟩ := List.pairwise_cons.mp h
    simp only [Memory.write]
    split
    · rename_i hlt
      refine List.pairwise_cons.mpr ⟨fun c hc => ?_, h⟩
      rcases List.mem_cons.mp hc with rfl | hc
      · exact hlt
      · exact Nat.lt_trans hlt (h1 c hc)
    · split
      · rename_i heq
        subst heq
        exact List.pairwise_cons.mpr ⟨h1, h2⟩
      · refine List.pairwise_cons.mpr ⟨fun c hc => ?_, ih h2⟩
        rcases Memory.mem_write hc with rfl | hc
        · show a < i
          omega
        · exact h1 c hc

theorem Memory.byteAt_of_forall_ne {m : Memory} {i : Nat} (h : ∀ cell ∈ m, cell.1 ≠ i) : m.byteAt i = none := by
  induction m with
  | nil => rfl
  | cons c rest ih =>
    obtain ⟨a, b⟩ := c
    have ha : a ≠ i := h (a, b) (by simp)
    simp [Memory.byteAt, ha, ih fun cell hc => h cell (by simp [hc])]

/-- Equal buffers are equal lists: two canonical lists that list the same byte at every index are the same. -/
theorem Memory.ext_of_byteAt {m m' : Memory} (h : m.wf) (h' : m'.wf) (hl : ∀ i, m.byteAt i = m'.byteAt i) : m = m' := by
  induction m generalizing m' with
  | nil =>
    cases m' with
    | nil => rfl
    | cons c _ => simpa [Memory.byteAt] using hl c.1
  | cons c rest ih =>
    obtain ⟨a, b⟩ := c
    obtain ⟨h1, h2⟩ := List.pairwise_cons.mp h
    cases m' with
    | nil => simpa [Memory.byteAt] using hl a
    | cons c' rest' =>
      obtain ⟨a', b'⟩ := c'
      obtain ⟨h1', h2'⟩ := List.pairwise_cons.mp h'
      have none_below : ∀ k, k ≤ a → Memory.byteAt rest k = none := fun k hk =>
        Memory.byteAt_of_forall_ne fun cell hc => by have : a < cell.1 := h1 cell hc; omega
      have none_below' : ∀ k, k ≤ a' → Memory.byteAt rest' k = none := fun k hk =>
        Memory.byteAt_of_forall_ne fun cell hc => by have : a' < cell.1 := h1' cell hc; omega
      have haa : a = a' := by
        have e1 := hl a
        have e2 := hl a'
        simp only [Memory.byteAt, if_true] at e1 e2
        rcases Nat.lt_trichotomy a a' with hlt | heq | hgt
        · rw [if_neg (by omega), none_below' a (by omega)] at e1; cases e1
        · exact heq
        · rw [if_neg (by omega), none_below a' (by omega)] at e2; cases e2
      subst haa
      have hbb : b = b' := by simpa [Memory.byteAt] using hl a
      subst hbb
      congr 1
      refine ih h2 h2' fun k => ?_
      by_cases hk : a = k
      · rw [none_below k (by omega), none_below' k (by omega)]
      · simpa [Memory.byteAt, hk] using hl k

theorem Memory.byteAt_append (m m' : Memory) (i : Nat) :
    Memory.byteAt (m ++ m') i = (m.byteAt i).or (m'.byteAt i) := by
  induction m with
  | nil => simp [Memory.byteAt]
  | cons c rest ih =>
    obtain ⟨a, b⟩ := c
    simp only [List.cons_append, Memory.byteAt, ih]
    split <;> simp

theorem Memory.byteAt_zeros (l : List Nat) (i : Nat) :
    Memory.byteAt (l.map fun k => (k, 0#8)) i = if i ∈ l then some 0#8 else none := by
  induction l with
  | nil => simp [Memory.byteAt]
  | cons a rest ih => simp only [List.map_cons, Memory.byteAt, ih]; grind

theorem Memory.byteAt_filter (m : Memory) (n i : Nat) (h : n ≤ i) :
    Memory.byteAt (m.filter fun cell => decide (n ≤ cell.1)) i = m.byteAt i := by
  induction m with
  | nil => rfl
  | cons c rest ih =>
    obtain ⟨a, b⟩ := c
    by_cases ha : n ≤ a
    · rw [List.filter_cons_of_pos (by simpa using ha)]
      simp only [Memory.byteAt, ih]
    · rw [List.filter_cons_of_neg (by simpa using ha), ih]
      simp [Memory.byteAt, show a ≠ i by omega]

theorem Memory.byteAt_zeroFirst (n : Nat) (m : Memory) (i : Nat) :
    (m.zeroFirst n).byteAt i = if i < n then some 0#8 else m.byteAt i := by
  rw [Memory.zeroFirst, Memory.byteAt_append, Memory.byteAt_zeros]
  by_cases h : i < n
  · simp [h]
  · simp [h, Memory.byteAt_filter m n i (by omega)]

theorem Memory.mem_zeroFirst {n : Nat} {m : Memory} {cell : Host.Cell} (h : cell ∈ m.zeroFirst n) :
    cell.1 < n ∨ cell ∈ m := by
  rcases List.mem_append.mp h with h | h
  · obtain ⟨k, hk, rfl⟩ := List.mem_map.mp h
    exact .inl (List.mem_range.mp hk)
  · exact .inr (List.mem_filter.mp h).1

theorem Memory.wf_zeroFirst {m : Memory} (h : m.wf) (n : Nat) : (m.zeroFirst n).wf := by
  refine List.pairwise_append.mpr ⟨?_, h.filter _, ?_⟩
  · exact List.pairwise_map.mpr (List.pairwise_lt_range.imp fun h => h)
  · intro a ha b hb
    obtain ⟨k, hk, rfl⟩ := List.mem_map.mp ha
    have := List.mem_range.mp hk
    have := (List.mem_filter.mp hb).2
    simp only [decide_eq_true_eq] at this
    show k < b.1
    omega

/-! ### Buffers of the state -/

theorem bufOf_setBuf {s : State} {p : Nat} (hp : p < s.buf.length) (m : Memory) (q : Nat) :
    bufOf (setBuf s p m) q = if q = p then m else bufOf s q := by
  by_cases h : q = p
  · subst h; simp [bufOf, List.getD, hp]
  · simp [bufOf, List.getD, h, List.getElem?_set_ne (Ne.symm h)]

theorem memRead_setBuf {s : State} {p : Nat} (hp : p < s.buf.length) (m : Memory) (q i : Nat) :
    memRead (setBuf s p m) q i = if q = p then (m.byteAt i).getD (Config.unwrittenByte s.epoch p i) else memRead s q i := by
  unfold memRead
  rw [bufOf_setBuf hp]
  split
  · subst_vars; rfl
  · rfl

/-- The operation changes the scratch buffers at most: every other field is as before. -/
def OnlyBuffers (s t : State) : Prop := t = { s with buf := t.buf } ∧ t.buf.length = s.buf.length

theorem OnlyBuffers.refl (s : State) : OnlyBuffers s s := ⟨rfl, rfl⟩

theorem OnlyBuffers.trans {s t u : State} (h : OnlyBuffers s t) (h' : OnlyBuffers t u) : OnlyBuffers s u := by
  obtain ⟨e, l⟩ := h
  obtain ⟨e', l'⟩ := h'
  refine ⟨?_, l'.trans l⟩
  rw [e', e]

theorem OnlyBuffers.sameControl {s t : State} (h : OnlyBuffers s t) : SameControl s t := by
  rw [h.1]
  exact ⟨rfl, rfl, rfl, rfl, rfl, rfl, rfl, rfl⟩

theorem OnlyBuffers.trace {s t : State} (h : OnlyBuffers s t) : t.trace = s.trace := by rw [h.1]
theorem OnlyBuffers.params {s t : State} (h : OnlyBuffers s t) : t.params = s.params := by rw [h.1]
theorem OnlyBuffers.ctx {s t : State} (h : OnlyBuffers s t) (p : Nat) : Machine.ctx t p = Machine.ctx s p := by
  rw [h.1]; rfl
theorem OnlyBuffers.desc {s t : State} (h : OnlyBuffers s t) (f : Nat) : Machine.desc t f = Machine.desc s f := by
  rw [h.1]; rfl
theorem OnlyBuffers.widthOf {s t : State} (h : OnlyBuffers s t) (p : Nat) :
    Machine.widthOf t p = Machine.widthOf s p := by rw [h.1]; rfl
theorem OnlyBuffers.pagesOf {s t : State} (h : OnlyBuffers s t) (p : Nat) :
    Machine.pagesOf t p = Machine.pagesOf s p := by rw [h.1]; rfl

theorem onlyBuffers_setBuf (s : State) (p : Nat) (m : Memory) : OnlyBuffers s (setBuf s p m) :=
  ⟨rfl, by simp⟩

theorem onlyBuffers_memOr (s : State) (p i : Nat) (m : Byte) : OnlyBuffers s (memOr s p i m) := by
  unfold memOr
  split
  · exact .refl s
  · exact onlyBuffers_setBuf ..

theorem onlyBuffers_memZero (s : State) (p : Nat) : OnlyBuffers s (memZero s p) := onlyBuffers_setBuf ..

/-- MemOr ORs its mask into its one byte and leaves every other byte of every buffer alone (R53). -/
theorem memRead_memOr {s : State} {p : Nat} (hp : p < s.buf.length) (i : Nat) (m : Byte) (q j : Nat) :
    memRead (memOr s p i m) q j = if q = p ∧ j = i then memRead s p i ||| m else memRead s q j := by
  unfold memOr
  split
  · rename_i hm
    subst hm
    split
    · rename_i h; rw [h.1, h.2]; simp
    · rfl
  · rw [memRead_setBuf hp, Memory.byteAt_write]
    by_cases hq : q = p
    · subst hq
      by_cases hj : j = i
      · simp [hj]
      · simp [hj, memRead]
    · simp [hq]

/-- MemZero zeroes the first W*P bytes of its context and leaves every other byte alone (R53). -/
theorem memRead_memZero {s : State} {p : Nat} (hp : p < s.buf.length) (q j : Nat) :
    memRead (memZero s p) q j = if q = p ∧ j < widthOf s p * pagesOf s p then 0#8 else memRead s q j := by
  unfold memZero
  rw [memRead_setBuf hp, Memory.byteAt_zeroFirst]
  by_cases hq : q = p
  · subst hq
    by_cases hj : j < widthOf s q * pagesOf s q
    · simp [hj]
    · simp [hj, memRead]
  · simp [hq]

/-- Every buffer is canonical and lists no index at W*P or above (R50, R55). -/
def BuffersOk (s : State) : Prop :=
  ∀ p, (bufOf s p).wf ∧ ∀ cell ∈ bufOf s p, cell.1 < widthOf s p * pagesOf s p

theorem buffersOk_memOr {s : State} (h : BuffersOk s) {p i : Nat} (hi : i < widthOf s p * pagesOf s p) (m : Byte) :
    BuffersOk (memOr s p i m) := by
  unfold memOr
  split
  · exact h
  · intro q
    by_cases hp : p < s.buf.length
    · rw [bufOf_setBuf hp]
      simp only [widthOf_setBuf, pagesOf_setBuf]
      split
      · subst_vars
        refine ⟨Memory.wf_write (h _).1 _ _, fun cell hc => ?_⟩
        rcases Memory.mem_write hc with rfl | hc
        · exact hi
        · exact (h _).2 cell hc
      · exact h q
    · have : setBuf s p ((bufOf s p).write i (memRead s p i ||| m)) = s := by
        simp [setBuf, List.set_eq_of_length_le (Nat.le_of_not_lt hp)]
      rw [this]
      exact h q

theorem buffersOk_memZero {s : State} (h : BuffersOk s) (p : Nat) : BuffersOk (memZero s p) := by
  intro q
  unfold memZero
  by_cases hp : p < s.buf.length
  · rw [bufOf_setBuf hp]
    simp only [widthOf_setBuf, pagesOf_setBuf]
    split
    · subst_vars
      refine ⟨Memory.wf_zeroFirst (h _).1 _, fun cell hc => ?_⟩
      rcases Memory.mem_zeroFirst hc with hc | hc
      · exact hc
      · exact (h _).2 cell hc
    · exact h q
  · have : setBuf s p ((bufOf s p).zeroFirst (widthOf s p * pagesOf s p)) = s := by
      simp [setBuf, List.set_eq_of_length_le (Nat.le_of_not_lt hp)]
    rw [this]
    exact h q

end Sys2Proof.Machine
end

