-- ==== Sys2Proof/Laws/Lines.lean ====
section
/-! SUPPORT. What the line primitives do to every byte and every pixel: each is a list of MemOr accesses, described by the
mask it ORs into each index (`cover`); LineV and its row-by-row reference have the same cover (R131, R134, R135, R139). -/

namespace Sys2Proof.Machine

/-- Perform the accesses of a list, in order: OR each mask into its index of context `p`. -/
def orAll (p : Nat) (l : List (Nat × Byte)) (s : State) : State := l.foldl (fun t e => memOr t p e.1 e.2) s

/-- The mask a list of accesses ORs into index `i`. -/
def cover : List (Nat × Byte) → Nat → Byte
  | [], _ => 0#8
  | e :: rest, i => (if e.1 = i then e.2 else 0#8) ||| cover rest i

theorem onlyBuffers_orAll (p : Nat) (l : List (Nat × Byte)) (s : State) : OnlyBuffers s (orAll p l s) := by
  induction l generalizing s with
  | nil => exact .refl s
  | cons e rest ih => exact (onlyBuffers_memOr s p e.1 e.2).trans (ih _)

theorem buffersOk_orAll {p : Nat} {l : List (Nat × Byte)} {s : State} (h : BuffersOk s)
    (hl : ∀ e ∈ l, e.1 < widthOf s p * pagesOf s p) : BuffersOk (orAll p l s) := by
  induction l generalizing s with
  | nil => exact h
  | cons e rest ih =>
    have hb := onlyBuffers_memOr s p e.1 e.2
    refine ih (buffersOk_memOr h (hl e (by simp)) e.2) fun e' he' => ?_
    rw [hb.widthOf, hb.pagesOf]
    exact hl e' (by simp [he'])

/-- A list of accesses ORs its cover into the bytes of its context and leaves every other byte alone. -/
theorem memRead_orAll {p : Nat} (l : List (Nat × Byte)) {s : State} (hp : p < s.buf.length) (q j : Nat) :
    memRead (orAll p l s) q j = if q = p then memRead s p j ||| cover l j else memRead s q j := by
  induction l generalizing s with
  | nil => simp only [orAll, List.foldl_nil, cover, BitVec.or_zero]; grind
  | cons e rest ih =>
    have hlen : p < (memOr s p e.1 e.2).buf.length := by rw [(onlyBuffers_memOr s p e.1 e.2).2]; exact hp
    show memRead (orAll p rest (memOr s p e.1 e.2)) q j = _
    rw [ih hlen]
    by_cases hq : q = p
    · subst hq
      simp only [if_true, memRead_memOr hp, cover, true_and]
      by_cases hj : e.1 = j
      · subst hj; simp [BitVec.or_assoc]
      · simp [hj, Ne.symm hj]
    · simp [hq, memRead_memOr hp]

theorem getLsbD_cover (l : List (Nat × Byte)) (i j : Nat) :
    (cover l i).getLsbD j = true ↔ ∃ e ∈ l, e.1 = i ∧ e.2.getLsbD j = true := by
  induction l with
  | nil => simp [cover]
  | cons e rest ih =>
    simp only [cover, BitVec.getLsbD_or, Bool.or_eq_true, ih, List.mem_cons, exists_eq_or_imp]
    split <;> simp_all

theorem byteAt_memOr {s : State} {p : Nat} (hp : p < s.buf.length) (i : Nat) (m : Byte) (j : Nat) :
    (bufOf (memOr s p i m) p).byteAt j =
      if j = i ∧ m ≠ 0#8 then some (memRead s p i ||| m) else (bufOf s p).byteAt j := by
  unfold memOr
  by_cases hm : m = 0#8
  · simp [hm]
  · rw [if_neg hm, bufOf_setBuf hp, if_pos rfl, Memory.byteAt_write]
    by_cases hj : j = i <;> simp [hj, hm]

theorem byteAt_orAll {p : Nat} (l : List (Nat × Byte)) {s : State} (hp : p < s.buf.length) (j : Nat) :
    (bufOf (orAll p l s) p).byteAt j =
      if cover l j = 0#8 then (bufOf s p).byteAt j else some (memRead s p j ||| cover l j) := by
  induction l generalizing s with
  | nil => simp [cover, orAll]
  | cons e rest ih =>
    have hlen : p < (memOr s p e.1 e.2).buf.length := by rw [(onlyBuffers_memOr s p e.1 e.2).2]; exact hp
    show (bufOf (orAll p rest (memOr s p e.1 e.2)) p).byteAt j = _
    rw [ih hlen, byteAt_memOr hp, memRead_memOr hp]
    simp only [cover, true_and]
    by_cases hj : e.1 = j
    · subst hj
      by_cases hm : e.2 = 0#8
      · simp [hm]
      · have hne : e.2 ||| cover rest e.1 ≠ 0#8 := by
          intro h
          exact hm (BitVec.or_eq_zero_iff.mp h).1
        by_cases hc : cover rest e.1 = 0#8
        · simp [hc, hm]
        · simp [hc, hne, BitVec.or_assoc]
    · simp [hj, Ne.symm hj]

theorem bufOf_memOr_ne (s : State) {p q : Nat} (hq : q ≠ p) (i : Nat) (m : Byte) : bufOf (memOr s p i m) q = bufOf s q := by
  unfold memOr
  split
  · rfl
  · simp [bufOf, setBuf, List.getD, List.getElem?_set_ne (Ne.symm hq)]

theorem bufOf_orAll_ne (l : List (Nat × Byte)) (s : State) {p q : Nat} (hq : q ≠ p) : bufOf (orAll p l s) q = bufOf s q := by
  induction l generalizing s with
  | nil => rfl
  | cons e rest ih => exact (ih (memOr s p e.1 e.2)).trans (bufOf_memOr_ne s hq _ _)

theorem wf_memOr {s : State} {p q : Nat} (h : (bufOf s q).wf) (hp : p < s.buf.length) (i : Nat) (m : Byte) :
    (bufOf (memOr s p i m) q).wf := by
  unfold memOr
  split
  · exact h
  · rw [bufOf_setBuf hp]
    split
    · subst_vars; exact Memory.wf_write h _ _
    · exact h

theorem wf_orAll {p q : Nat} (l : List (Nat × Byte)) {s : State} (h : (bufOf s q).wf) (hp : p < s.buf.length) :
    (bufOf (orAll p l s) q).wf := by
  induction l generalizing s with
  | nil => exact h
  | cons e rest ih =>
    exact ih (wf_memOr h hp e.1 e.2) (by rw [(onlyBuffers_memOr s p e.1 e.2).2]; exact hp)

theorem OnlyBuffers.eq_of_bufOf {s t u : State} (ht : OnlyBuffers s t) (hu : OnlyBuffers s u)
    (h : ∀ q < s.buf.length, bufOf t q = bufOf u q) : t = u := by
  rw [ht.1, hu.1]
  have : t.buf = u.buf := by
    refine List.ext_getElem (ht.2.trans hu.2.symm) fun n h1 h2 => ?_
    have := h n (by rw [← ht.2]; exact h1)
    simpa [bufOf, List.getD, h1, h2] using this
  rw [this]

/-- Two lists of accesses with the same cover leave the same state. -/
theorem orAll_eq_of_cover {p : Nat} {l l' : List (Nat × Byte)} {s : State} (hp : p < s.buf.length) (hwf : (bufOf s p).wf)
    (h : ∀ i, cover l i = cover l' i) : orAll p l s = orAll p l' s := by
  refine (onlyBuffers_orAll p l s).eq_of_bufOf (onlyBuffers_orAll p l' s) fun q _ => ?_
  by_cases hq : q = p
  · subst hq
    refine Memory.ext_of_byteAt (wf_orAll l hwf hp) (wf_orAll l' hwf hp) fun i => ?_
    rw [byteAt_orAll l hp, byteAt_orAll l' hp, h i]
  · rw [bufOf_orAll_ne l s hq, bufOf_orAll_ne l' s hq]

/-! ### The three primitives as lists of accesses -/

/-- The accesses of LineH in a buffer of width `w` (R131, R132). -/
def lineHAccesses (w x y len : Nat) : List (Nat × Byte) :=
  (List.range len).map fun k => (y / 8 * w + x + k, BitVec.ofNat 8 (1 <<< (y % 8)))

/-- The accesses of LineVref in a buffer of width `w` (R134). -/
def lineVrefAccesses (w x y len : Nat) : List (Nat × Byte) :=
  (List.range len).map fun k => ((y + k) / 8 * w + x, BitVec.ofNat 8 (1 <<< ((y + k) % 8)))

/-- The accesses of a list of masks down column `x` from page `q`. -/
def downAccesses (w x : Nat) : Nat → List Byte → List (Nat × Byte)
  | _, [] => []
  | q, m :: rest => (q * w + x, m) :: downAccesses w x (q + 1) rest

/-- The accesses of LineV in a buffer of width `w` (R135). -/
def lineVAccesses (w x y len : Nat) : List (Nat × Byte) := downAccesses w x (y / 8) (columnMasks (y % 8) len)

theorem lineH_eq (p x y len : Nat) (s : State) : lineH p x y len s = orAll p (lineHAccesses (widthOf s p) x y len) s := by
  simp [lineH, orAll, lineHAccesses, List.foldl_map]

theorem lineVref_eq (p x y len : Nat) (s : State) :
    lineVref p x y len s = orAll p (lineVrefAccesses (widthOf s p) x y len) s := by
  simp [lineVref, orAll, lineVrefAccesses, List.foldl_map]

theorem orDown_eq (p x w q : Nat) (ms : List Byte) (s : State) : orDown p x w q ms s = orAll p (downAccesses w x q ms) s := by
  induction ms generalizing q s with
  | nil => rfl
  | cons m rest ih => exact ih (q + 1) _

theorem lineV_eq (p x y len : Nat) (s : State) : lineV p x y len s = orAll p (lineVAccesses (widthOf s p) x y len) s :=
  orDown_eq ..

/-! ### Masks -/

theorem getLsbD_shiftMask (k j : Nat) (hk : k < 8) : (BitVec.ofNat 8 (1 <<< k)).getLsbD j = decide (j = k) := by
  rcases Nat.lt_or_ge j 8 with hj | hj
  · interval_cases k <;> interval_cases j <;> rfl
  · rw [BitVec.getLsbD_of_ge _ _ hj]; simp; omega

theorem getLsbD_runMask (len s j : Nat) (h : s + len ≤ 8) :
    (BitVec.ofNat 8 (((1 <<< len) - 1) <<< s)).getLsbD j = decide (s ≤ j ∧ j < s + len) := by
  rw [BitVec.getLsbD_ofNat]
  simp only [Nat.one_shiftLeft, Nat.testBit_shiftLeft, Nat.testBit_two_pow_sub_one]
  grind

theorem getLsbD_headMask (s j : Nat) : (BitVec.ofNat 8 (0xFF <<< s)).getLsbD j = decide (s ≤ j ∧ j < 8) := by
  rw [BitVec.getLsbD_ofNat, show (0xFF : Nat) = 2 ^ 8 - 1 from rfl]
  simp only [Nat.testBit_shiftLeft, Nat.testBit_two_pow_sub_one]
  grind

theorem getLsbD_fullMask (j : Nat) : (0xFF#8).getLsbD j = decide (j < 8) := by
  rcases Nat.lt_or_ge j 8 with hj | hj
  · interval_cases j <;> rfl
  · rw [BitVec.getLsbD_of_ge _ _ hj]; simp; omega

/-- Bit `j` of the `k`-th mask is set exactly when row 8k+j lies in the run that starts at row `s` (R135). -/
theorem getLsbD_columnMasks (s len k j : Nat) (hs : s < 8) (hj : j < 8) :
    ((columnMasks s len)[k]?.getD 0#8).getLsbD j = decide (s ≤ 8 * k + j ∧ 8 * k + j < s + len) := by
  unfold columnMasks
  split
  · rename_i h
    cases k with
    | zero => simp only [List.getElem?_cons_zero, Option.getD_some, getLsbD_runMask _ _ _ h, Nat.mul_zero, Nat.zero_add]
    | succ k => simp; omega
  · rename_i h
    have hrem : len - (8 - s) = s + len - 8 := by omega
    simp only [hrem, List.cons_append]
    cases k with
    | zero =>
      simp only [List.getElem?_cons_zero, Option.getD_some, getLsbD_headMask, Nat.mul_zero, Nat.zero_add,
        decide_eq_decide]
      omega
    | succ k =>
      rw [List.getElem?_cons_succ]
      rcases Nat.lt_trichotomy k ((s + len - 8) / 8) with hk | hk | hk
      · rw [List.getElem?_append_left (by simpa using hk)]
        simp only [List.getElem?_replicate, hk, if_true, Option.getD_some, getLsbD_fullMask, decide_eq_decide]
        omega
      · rw [List.getElem?_append_right (by simp [hk]), List.length_replicate, ← hk, Nat.sub_self]
        split
        · have hr := getLsbD_runMask ((s + len - 8) % 8) 0 j (by omega)
          simp only [Nat.shiftLeft_zero] at hr
          simp only [List.getElem?_cons_zero, Option.getD_some, hr, decide_eq_decide]
          omega
        · simp only [List.getElem?_nil, Option.getD_none]
          simp
          omega
      · rw [List.getElem?_append_right (by simp; omega), List.length_replicate]
        have : 0 < k - (s + len - 8) / 8 := by omega
        rw [List.getElem?_eq_none (by split <;> simp only [List.length_cons, List.length_nil] <;> omega)]
        simp
        omega

theorem mem_downAccesses {w x q : Nat} {ms : List Byte} {e : Nat × Byte} :
    e ∈ downAccesses w x q ms ↔ ∃ k, ∃ h : k < ms.length, e = ((q + k) * w + x, ms[k]) := by
  induction ms generalizing q with
  | nil => simp [downAccesses]
  | cons m rest ih =>
    simp only [downAccesses, List.mem_cons, ih]
    constructor
    · rintro (rfl | ⟨k, h, rfl⟩)
      · exact ⟨0, by simp, by simp⟩
      · exact ⟨k + 1, by simpa using h, by rw [List.getElem_cons_succ, show q + (k + 1) = q + 1 + k by omega]⟩
    · rintro ⟨k, h, rfl⟩
      cases k with
      | zero => left; simp
      | succ k =>
        right
        exact ⟨k, by simpa using h, by rw [List.getElem_cons_succ, show q + (k + 1) = q + 1 + k by omega]⟩

/-! ### Pixels -/

/-- Two cells of a page-major buffer of width `w` are the same exactly when page and column are (R50). -/
theorem index_inj {w q q' x x' : Nat} (hx : x < w) (hx' : x' < w) : q * w + x = q' * w + x' ↔ q = q' ∧ x = x' := by
  constructor
  · intro h
    have e1 : (q * w + x) / w = q := by rw [mul_comm, Nat.mul_add_div (by omega), Nat.div_eq_of_lt hx, add_zero]
    have e2 : (q' * w + x') / w = q' := by rw [mul_comm, Nat.mul_add_div (by omega), Nat.div_eq_of_lt hx', add_zero]
    have hq : q = q' := by rw [← e1, h, e2]
    subst hq
    exact ⟨rfl, by omega⟩
  · rintro ⟨rfl, rfl⟩; rfl

theorem index_lt {w pages q x : Nat} (hx : x < w) (hq : q < pages) : q * w + x < w * pages := by
  have : (q + 1) * w ≤ pages * w := Nat.mul_le_mul_right w hq
  rw [Nat.mul_comm w pages]
  have : (q + 1) * w = q * w + w := by ring
  omega

/-- LineH covers row `y`, columns [x, x+len) (R131). -/
theorem cover_lineH {w x y len cx r : Nat} (hx : x + len ≤ w) (hcx : cx < w) :
    (cover (lineHAccesses w x y len) (r / 8 * w + cx)).getLsbD (r % 8) = decide (r = y ∧ x ≤ cx ∧ cx < x + len) := by
  rw [Bool.eq_iff_iff, getLsbD_cover, decide_eq_true_eq]
  simp only [lineHAccesses, List.mem_map, List.mem_range, exists_exists_and_eq_and,
    getLsbD_shiftMask _ _ (Nat.mod_lt y (by decide)), decide_eq_true_eq]
  constructor
  · rintro ⟨k, hk, he, hb⟩
    rw [Nat.add_assoc, index_inj (by omega) hcx] at he
    omega
  · rintro ⟨rfl, h1, h2⟩
    exact ⟨cx - x, by omega, by omega, rfl⟩

/-- The reference covers column `x`, rows [y, y+len) (R134). -/
theorem cover_lineVref {w x y len cx r : Nat} (hx : x < w) (hcx : cx < w) :
    (cover (lineVrefAccesses w x y len) (r / 8 * w + cx)).getLsbD (r % 8) = decide (cx = x ∧ y ≤ r ∧ r < y + len) := by
  rw [Bool.eq_iff_iff, getLsbD_cover, decide_eq_true_eq]
  simp only [lineVrefAccesses, List.mem_map, List.mem_range, exists_exists_and_eq_and,
    getLsbD_shiftMask _ _ (Nat.mod_lt _ (by decide : 0 < 8)), decide_eq_true_eq]
  constructor
  · rintro ⟨k, hk, he, hb⟩
    rw [index_inj hx hcx] at he
    omega
  · rintro ⟨rfl, h1, h2⟩
    exact ⟨r - y, by omega, by rw [show y + (r - y) = r by omega], by rw [show y + (r - y) = r by omega]⟩

/-- LineV, page by page, covers column `x`, rows [y, y+len) (R134, R135). -/
theorem cover_lineV {w x y len cx r : Nat} (hx : x < w) (hcx : cx < w) :
    (cover (lineVAccesses w x y len) (r / 8 * w + cx)).getLsbD (r % 8) = decide (cx = x ∧ y ≤ r ∧ r < y + len) := by
  have hs : y % 8 < 8 := Nat.mod_lt _ (by decide)
  have hr : r % 8 < 8 := Nat.mod_lt _ (by decide)
  rw [Bool.eq_iff_iff, getLsbD_cover, decide_eq_true_eq]
  simp only [lineVAccesses, mem_downAccesses]
  constructor
  · rintro ⟨e, ⟨k, hk, rfl⟩, he, hb⟩
    rw [index_inj hx hcx] at he
    have hm := getLsbD_columnMasks (y % 8) len k (r % 8) hs hr
    rw [List.getElem?_eq_getElem hk, Option.getD_some, hb] at hm
    have := of_decide_eq_true hm.symm
    omega
  · rintro ⟨rfl, h1, h2⟩
    have hm := getLsbD_columnMasks (y % 8) len (r / 8 - y / 8) (r % 8) hs hr
    rw [decide_eq_true (by omega)] at hm
    have hk : r / 8 - y / 8 < (columnMasks (y % 8) len).length := by
      by_contra hk
      rw [List.getElem?_eq_none (by omega)] at hm
      simp at hm
    rw [List.getElem?_eq_getElem hk, Option.getD_some] at hm
    refine ⟨_, ⟨r / 8 - y / 8, hk, rfl⟩, ?_, hm⟩
    show (y / 8 + (r / 8 - y / 8)) * w + cx = _
    rw [show y / 8 + (r / 8 - y / 8) = r / 8 by omega]

/-- LineV and its row-by-row reference leave the same state (R139). -/
theorem lineV_eq_lineVref {s : State} {p x : Nat} (y len : Nat) (hp : p < s.buf.length) (hwf : (bufOf s p).wf)
    (hx : x < widthOf s p) : lineV p x y len s = lineVref p x y len s := by
  rw [lineV_eq, lineVref_eq]
  refine orAll_eq_of_cover hp hwf fun i => BitVec.eq_of_getLsbD_eq fun j hj => ?_
  have hi : i / widthOf s p * widthOf s p + i % widthOf s p = i := by rw [mul_comm]; exact Nat.div_add_mod i _
  have hc : i % widthOf s p < widthOf s p := Nat.mod_lt _ (by omega)
  have hv := cover_lineV (len := len) (y := y) (r := i / widthOf s p * 8 + j) hx hc
  have hr := cover_lineVref (len := len) (y := y) (r := i / widthOf s p * 8 + j) hx hc
  rw [show (i / widthOf s p * 8 + j) / 8 = i / widthOf s p by omega, show (i / widthOf s p * 8 + j) % 8 = j by omega, hi]
    at hv hr
  rw [hv, hr]

theorem onlyBuffers_lineH (p x y len : Nat) (s : State) : OnlyBuffers s (lineH p x y len s) := by
  rw [lineH_eq]; exact onlyBuffers_orAll ..

theorem onlyBuffers_lineV (p x y len : Nat) (s : State) : OnlyBuffers s (lineV p x y len s) := by
  rw [lineV_eq]; exact onlyBuffers_orAll ..

theorem onlyBuffers_lineVref (p x y len : Nat) (s : State) : OnlyBuffers s (lineVref p x y len s) := by
  rw [lineVref_eq]; exact onlyBuffers_orAll ..

/-- What LineH does to every pixel of its context (R131). -/
theorem pix_lineH {s : State} {p x y len cx r : Nat} (hp : p < s.buf.length) (hx : x + len ≤ widthOf s p)
    (hcx : cx < widthOf s p) :
    pix (lineH p x y len s) p cx r = (pix s p cx r || decide (r = y ∧ x ≤ cx ∧ cx < x + len)) := by
  unfold pix
  rw [(onlyBuffers_lineH p x y len s).widthOf, lineH_eq, memRead_orAll _ hp, if_pos rfl, BitVec.getLsbD_or,
    cover_lineH hx hcx]

/-- What LineV does to every pixel of its context (R134). -/
theorem pix_lineV {s : State} {p x y len cx r : Nat} (hp : p < s.buf.length) (hx : x < widthOf s p)
    (hcx : cx < widthOf s p) :
    pix (lineV p x y len s) p cx r = (pix s p cx r || decide (cx = x ∧ y ≤ r ∧ r < y + len)) := by
  unfold pix
  rw [(onlyBuffers_lineV p x y len s).widthOf, lineV_eq, memRead_orAll _ hp, if_pos rfl, BitVec.getLsbD_or,
    cover_lineV hx hcx]

theorem orAll_append (p : Nat) (l l' : List (Nat × Byte)) (s : State) : orAll p (l ++ l') s = orAll p l' (orAll p l s) := by
  simp [orAll, List.foldl_append]

theorem cover_append (l l' : List (Nat × Byte)) (i : Nat) : cover (l ++ l') i = cover l i ||| cover l' i := by
  induction l with
  | nil => simp [cover]
  | cons e rest ih => simp [cover, ih, BitVec.or_assoc]

/-- A line touches no byte outside the list of its accesses. -/
theorem cover_eq_zero {l : List (Nat × Byte)} {i : Nat} (h : ∀ e ∈ l, e.1 ≠ i) : cover l i = 0#8 := by
  induction l with
  | nil => rfl
  | cons e rest ih => simp [cover, h e (by simp), ih fun e' he' => h e' (by simp [he'])]

theorem mem_lineHAccesses_lt {w pages x y len : Nat} (hx : x + len ≤ w) (hy : y < 8 * pages) :
    ∀ e ∈ lineHAccesses w x y len, e.1 < w * pages := by
  intro e he
  obtain ⟨k, hk, rfl⟩ := List.mem_map.mp he
  have := List.mem_range.mp hk
  rw [Nat.add_assoc]
  exact index_lt (by omega) (by omega)

theorem mem_lineVAccesses_lt {w pages x y len : Nat} (hx : x < w) (hy : y < 8 * pages) (hl : y + len ≤ 8 * pages) :
    ∀ e ∈ lineVAccesses w x y len, e.1 < w * pages := by
  intro e he
  obtain ⟨k, hk, rfl⟩ := mem_downAccesses.mp he
  refine index_lt hx ?_
  revert hk
  unfold columnMasks
  split
  · simp only [List.length_cons, List.length_nil]; omega
  · simp only [List.length_cons, List.length_append, List.length_replicate]
    split <;> simp only [List.length_cons, List.length_nil] <;> omega

end Sys2Proof.Machine
end

