-- ==== Sys2Proof/Laws/Glyph.lean ====
section
/-! SUPPORT. What Draw does: it changes scratch buffers only, keeps them in bounds, and leaves the glyph of the closed form
R116 in its context, whatever the buffer held before. -/

namespace Sys2Proof.Machine

theorem interiorHeight_eq (pages : Nat) : interiorHeight pages = 6 * pages := by
  simp only [interiorHeight, Config.rowsPerPage, Config.marginPerPage]; omega

/-- A drawn width is never 0 and never above W (R113). -/
theorem drawnWidth_bounds (code : Byte) {w : Nat} (hw : 2 ≤ w) : 1 ≤ drawnWidth code w ∧ drawnWidth code w ≤ w := by
  unfold drawnWidth; split <;> omega

theorem drawnWidth_le (code : Byte) (w : Nat) : drawnWidth code w ≤ w := by
  unfold drawnWidth; split <;> omega

/-! ### The strokes as a list of accesses -/

/-- The accesses of one stroke, none when its bit is 0. -/
def strokeAccesses (present : Bool) (l : List (Nat × Byte)) : List (Nat × Byte) := if present then l else []

/-- The accesses of the seven strokes in a buffer of width `bw` (R115). -/
def glyphAccesses (bw : Nat) (code : Byte) (w h : Nat) : List (Nat × Byte) :=
  strokeAccesses (code.getLsbD 0) (lineHAccesses bw 0 0 w) ++
    strokeAccesses (code.getLsbD 1) (lineVAccesses bw (w - 1) 0 (h / 2)) ++
    strokeAccesses (code.getLsbD 2) (lineVAccesses bw (w - 1) (h / 2) (h - h / 2)) ++
    strokeAccesses (code.getLsbD 3) (lineHAccesses bw 0 (h - 1) w) ++
    strokeAccesses (code.getLsbD 4) (lineVAccesses bw 0 (h / 2) (h - h / 2)) ++
    strokeAccesses (code.getLsbD 5) (lineVAccesses bw 0 0 (h / 2)) ++
    strokeAccesses (code.getLsbD 6) (lineHAccesses bw 0 (h / 2) w)

theorem strokeIf_lineH (b : Bool) (p x y len : Nat) (l : List (Nat × Byte)) (s : State) :
    strokeIf b (lineH p x y len) (orAll p l s) =
      orAll p (l ++ strokeAccesses b (lineHAccesses (widthOf s p) x y len)) s := by
  cases b
  · simp [strokeIf, strokeAccesses]
  · simp [strokeIf, strokeAccesses, lineH_eq, orAll_append, (onlyBuffers_orAll p l s).widthOf]

theorem strokeIf_lineV (b : Bool) (p x y len : Nat) (l : List (Nat × Byte)) (s : State) :
    strokeIf b (lineV p x y len) (orAll p l s) =
      orAll p (l ++ strokeAccesses b (lineVAccesses (widthOf s p) x y len)) s := by
  cases b
  · simp [strokeIf, strokeAccesses]
  · simp [strokeIf, strokeAccesses, lineV_eq, orAll_append, (onlyBuffers_orAll p l s).widthOf]

theorem drawStrokes_eq (p : Nat) (code : Byte) (w h : Nat) (s : State) :
    drawStrokes p code w h s = orAll p (glyphAccesses (widthOf s p) code w h) s := by
  have h0 : s = orAll p [] s := rfl
  unfold drawStrokes glyphAccesses
  conv_lhs => rw [h0]
  simp only [strokeIf_lineH, strokeIf_lineV, List.nil_append]

/-- Draw writes no register and emits no event (R115). -/
theorem onlyBuffers_draw (p sym : Nat) (s : State) : OnlyBuffers s (draw p sym s) := by
  unfold draw
  rw [drawStrokes_eq]
  exact (onlyBuffers_memZero s p).trans (onlyBuffers_orAll ..)

/-- Draw touches no other context's buffer (R159). -/
theorem memRead_draw_ne {s : State} {p q : Nat} (sym i : Nat) (hp : p < s.buf.length) (hq : q ≠ p) :
    memRead (draw p sym s) q i = memRead s q i := by
  unfold draw
  rw [drawStrokes_eq, memRead_orAll _ ((onlyBuffers_memZero s p).2 ▸ hp), if_neg hq, memRead_memZero hp, if_neg (by simp [hq])]

theorem mem_strokeAccesses {b : Bool} {l : List (Nat × Byte)} {e : Nat × Byte} (h : e ∈ strokeAccesses b l) : e ∈ l := by
  unfold strokeAccesses at h
  split at h
  · exact h
  · simp at h

/-- All primitive calls made by Draw are inside the buffer (R117). -/
theorem mem_glyphAccesses_lt {bw pages w : Nat} (code : Byte) (h1 : 1 ≤ w) (hw : w ≤ bw) (hP : 1 ≤ pages) :
    ∀ e ∈ glyphAccesses bw code w (6 * pages), e.1 < bw * pages := by
  intro e he
  simp only [glyphAccesses, List.mem_append, or_assoc] at he
  rcases he with he | he | he | he | he | he | he <;> replace he := mem_strokeAccesses he
  · exact mem_lineHAccesses_lt (by omega) (by omega) e he
  · exact mem_lineVAccesses_lt (by omega) (by omega) (by omega) e he
  · exact mem_lineVAccesses_lt (by omega) (by omega) (by omega) e he
  · exact mem_lineHAccesses_lt (by omega) (by omega) e he
  · exact mem_lineVAccesses_lt (by omega) (by omega) (by omega) e he
  · exact mem_lineVAccesses_lt (by omega) (by omega) (by omega) e he
  · exact mem_lineHAccesses_lt (by omega) (by omega) e he

theorem getLsbD_cover_strokeAccesses (b : Bool) (l : List (Nat × Byte)) (i j : Nat) :
    (cover (strokeAccesses b l) i).getLsbD j = (b && (cover l i).getLsbD j) := by
  cases b <;> simp [strokeAccesses, cover]

/-- The strokes cover exactly the pixels of the closed form (R116). -/
theorem cover_glyphAccesses {bw pages w cx r : Nat} (code : Byte) (h1 : 1 ≤ w) (hw : w ≤ bw) (hcx : cx < bw) :
    (cover (glyphAccesses bw code w (6 * pages)) (r / 8 * bw + cx)).getLsbD (r % 8) = glyphPixel code w pages cx r := by
  simp only [glyphAccesses, cover_append, BitVec.getLsbD_or, getLsbD_cover_strokeAccesses]
  rw [cover_lineH (by omega) hcx, cover_lineH (by omega) hcx, cover_lineH (by omega) hcx, cover_lineV (by omega) hcx,
    cover_lineV (by omega) hcx, cover_lineV (by omega) hcx, cover_lineV (by omega) hcx,
    show 6 * pages / 2 = 3 * pages by omega, show 3 * pages + (6 * pages - 3 * pages) = 6 * pages by omega, Bool.eq_iff_iff]
  simp only [glyphPixel, Bool.or_eq_true, Bool.and_eq_true, decide_eq_true_eq]
  constructor
  · rintro ((((((⟨hb, h⟩ | ⟨hb, h⟩) | ⟨hb, h⟩) | ⟨hb, h⟩) | ⟨hb, h⟩) | ⟨hb, h⟩) | ⟨hb, h⟩) <;>
      (refine ⟨by omega, ?_⟩; simp only [hb, true_and]; omega)
  · rintro ⟨hw, ((((((⟨hb, h⟩ | ⟨hb, h⟩) | ⟨hb, h⟩) | ⟨hb, h⟩) | ⟨hb, h⟩) | ⟨hb, h⟩) | ⟨hb, h⟩)⟩ <;>
      (simp only [hb, true_and]; omega)

/-- After Draw the pixels of the context are exactly the glyph's, whatever the buffer held (R116). -/
theorem pix_draw {s : State} {p sym cx r : Nat} (hp : p < s.buf.length) (hw : 2 ≤ widthOf s p) (hcx : cx < widthOf s p)
    (hr : r < 8 * pagesOf s p) :
    pix (draw p sym s) p cx r = glyphPixel (strokeOf s.params sym) (glyphWidth s p sym) (pagesOf s p) cx r := by
  have hz := onlyBuffers_memZero s p
  have hb := drawnWidth_bounds (strokeOf s.params sym) hw
  unfold pix
  rw [(onlyBuffers_draw p sym s).widthOf]
  unfold draw
  rw [drawStrokes_eq, memRead_orAll _ (hz.2 ▸ hp), if_pos rfl, memRead_memZero hp,
    if_pos ⟨rfl, index_lt hcx (by omega)⟩, BitVec.zero_or, hz.widthOf, interiorHeight_eq]
  exact cover_glyphAccesses _ hb.1 hb.2 hcx

/-- Bytes above W*P are never accessed (R50). -/
theorem memRead_draw_above {s : State} {p i : Nat} (sym : Nat) (hp : p < s.buf.length) (hw : 2 ≤ widthOf s p)
    (hP : 1 ≤ pagesOf s p) (hi : widthOf s p * pagesOf s p ≤ i) : memRead (draw p sym s) p i = memRead s p i := by
  have hz := onlyBuffers_memZero s p
  have hb := drawnWidth_bounds (strokeOf s.params sym) hw
  unfold draw
  rw [drawStrokes_eq, memRead_orAll _ (hz.2 ▸ hp), if_pos rfl, memRead_memZero hp, if_neg (by omega), hz.widthOf,
    interiorHeight_eq, cover_eq_zero, BitVec.or_zero]
  intro e he heq
  have := mem_glyphAccesses_lt (strokeOf s.params sym) hb.1 hb.2 hP e he
  omega

/-! ### Bytes of the closed form -/

theorem getLsbD_foldl_bits (g : Nat → Bool) (n j : Nat) (hn : n ≤ 8) :
    ((List.range n).foldl (fun acc k => if g k then acc ||| BitVec.ofNat 8 (1 <<< k) else acc) 0#8).getLsbD j =
      (decide (j < n) && g j) := by
  induction n with
  | zero => simp
  | succ n ih =>
    rw [List.range_succ, List.foldl_append, List.foldl_cons, List.foldl_nil]
    split
    · rw [BitVec.getLsbD_or, ih (by omega), getLsbD_shiftMask _ _ (by omega)]; grind
    · rw [ih (by omega)]; grind

theorem getLsbD_glyphByte (code : Byte) (w pages q x j : Nat) (hj : j < 8) :
    (glyphByte code w pages q x).getLsbD j = glyphPixel code w pages x (8 * q + j) := by
  unfold glyphByte
  rw [getLsbD_foldl_bits (fun j => glyphPixel code w pages x (8 * q + j)) 8 j (Nat.le_refl 8)]
  simp [hj]

/-- After Draw the byte at (page q, column x) is the byte of the closed form (R50, R51, R116). -/
theorem memRead_draw {s : State} {p sym q x : Nat} (hp : p < s.buf.length) (hw : 2 ≤ widthOf s p) (hx : x < widthOf s p)
    (hq : q < pagesOf s p) :
    memRead (draw p sym s) p (q * widthOf s p + x) =
      glyphByte (strokeOf s.params sym) (glyphWidth s p sym) (pagesOf s p) q x := by
  refine BitVec.eq_of_getLsbD_eq fun j hj => ?_
  have h := pix_draw (sym := sym) (r := 8 * q + j) hp hw hx (by omega)
  unfold pix at h
  rw [(onlyBuffers_draw p sym s).widthOf, show (8 * q + j) / 8 = q by omega, show (8 * q + j) % 8 = j by omega] at h
  rw [h, getLsbD_glyphByte _ _ _ _ _ _ hj]

/-! ### Buffers stay in bounds -/

theorem buffersOk_lineH {s : State} {p x y len : Nat} (hx : x + len ≤ widthOf s p) (hy : y < 8 * pagesOf s p)
    (h : BuffersOk s) : BuffersOk (lineH p x y len s) := by
  rw [lineH_eq]; exact buffersOk_orAll h (mem_lineHAccesses_lt hx hy)

theorem buffersOk_lineV {s : State} {p x y len : Nat} (hx : x < widthOf s p) (hy : y < 8 * pagesOf s p)
    (hl : y + len ≤ 8 * pagesOf s p) (h : BuffersOk s) : BuffersOk (lineV p x y len s) := by
  rw [lineV_eq]; exact buffersOk_orAll h (mem_lineVAccesses_lt hx hy hl)

theorem buffersOk_draw {s : State} {p : Nat} (sym : Nat) (hw : 2 ≤ widthOf s p) (hP : 1 ≤ pagesOf s p) (h : BuffersOk s) :
    BuffersOk (draw p sym s) := by
  have hz := onlyBuffers_memZero s p
  have hb := drawnWidth_bounds (strokeOf s.params sym) hw
  unfold draw
  rw [drawStrokes_eq, interiorHeight_eq]
  refine buffersOk_orAll (buffersOk_memZero h p) ?_
  rw [hz.widthOf, hz.pagesOf]
  exact mem_glyphAccesses_lt _ hb.1 hb.2 hP

end Sys2Proof.Machine
end

