-- ==== Sys2Proof/Laws/Field.lean ====
section
/-! SUPPORT. What Print and SetNumber do: the events they emit are the closed forms of R155 and R176, nothing but buffers and
events changes, and the buffers hold the last glyphs drawn (R184). Decompose gives the decimal digits (R173). -/

namespace Sys2Proof.Machine

theorem SameControl.refl (s : State) : SameControl s s := ⟨rfl, rfl, rfl, rfl, rfl, rfl, rfl, rfl⟩

theorem SameControl.trans {s t u : State} (h : SameControl s t) (h' : SameControl t u) : SameControl s u :=
  ⟨h'.params.trans h.params, h'.pc.trans h.pc, h'.fd.trans h.fd, h'.fault.trans h.fault, h'.fcode.trans h.fcode,
    h'.fcmd.trans h.fcmd, h'.epoch.trans h.epoch, h'.inputs.trans h.inputs⟩

theorem sameControl_emitAll (s : State) (es : List Event) : SameControl s (emitAll s es) :=
  ⟨rfl, rfl, rfl, rfl, rfl, rfl, rfl, rfl⟩

theorem sameControl_respond (s : State) (code : BitVec 4) (v : Byte) : SameControl s (respond s code v) :=
  ⟨rfl, rfl, rfl, rfl, rfl, rfl, rfl, rfl⟩

theorem SameControl.ctx {s t : State} (h : SameControl s t) (p : Nat) : Machine.ctx t p = Machine.ctx s p := by
  unfold Machine.ctx; rw [h.pc]

theorem SameControl.desc {s t : State} (h : SameControl s t) (f : Nat) : Machine.desc t f = Machine.desc s f := by
  unfold Machine.desc; rw [h.fd]

theorem SameControl.widthOf {s t : State} (h : SameControl s t) (p : Nat) : Machine.widthOf t p = Machine.widthOf s p := by
  unfold Machine.widthOf; rw [h.ctx]

theorem SameControl.pagesOf {s t : State} (h : SameControl s t) (p : Nat) : Machine.pagesOf t p = Machine.pagesOf s p := by
  unfold Machine.pagesOf; rw [h.ctx]

/-! ### Print -/

/-- The events of Push after Draw are those of the closed form (R155). -/
theorem pushEvents_draw {s : State} {p sym : Nat} (col page : Nat) (hp : p < s.buf.length) (hw : 2 ≤ widthOf s p) :
    pushEvents (draw p sym s) p col page (glyphWidth s p sym) =
      glyphEvents s.params (widthOf s p) (pagesOf s p) sym col page := by
  have hd := onlyBuffers_draw p sym s
  unfold pushEvents glyphEvents
  rw [hd.pagesOf]
  refine List.map_congr_left fun i hi => ?_
  have hi := List.mem_range.mp hi
  show Event.drawPage _ _ _ _ = Event.drawPage _ _ _ _
  congr 1
  unfold pageRun
  rw [hd.widthOf]
  refine List.map_congr_left fun k hk => ?_
  have hk := List.mem_range.mp hk
  have := drawnWidth_le (strokeOf s.params sym) (widthOf s p)
  exact memRead_draw hp hw (Nat.lt_of_lt_of_le hk this) hi

/-- Print is Draw followed by the events of the closed form (R155). -/
theorem print_eq {s : State} {p : Nat} (sym col page : Nat) (hp : p < s.buf.length) (hw : 2 ≤ widthOf s p) :
    print p sym col page s = emitAll (draw p sym s) (glyphEvents s.params (widthOf s p) (pagesOf s p) sym col page) := by
  unfold print push
  rw [pushEvents_draw col page hp hw]

theorem sameControl_print (p sym col page : Nat) (s : State) : SameControl s (print p sym col page s) :=
  (onlyBuffers_draw p sym s).sameControl.trans (sameControl_emitAll ..)

theorem length_buf_print (p sym col page : Nat) (s : State) : (print p sym col page s).buf.length = s.buf.length :=
  (onlyBuffers_draw p sym s).2

theorem bufOf_print (p sym col page : Nat) (s : State) (q : Nat) :
    bufOf (print p sym col page s) q = bufOf (draw p sym s) q := rfl

theorem memRead_print (p sym col page : Nat) (s : State) (q i : Nat) :
    memRead (print p sym col page s) q i = memRead (draw p sym s) q i := rfl

theorem trace_print {s : State} {p : Nat} (sym col page : Nat) (hp : p < s.buf.length) (hw : 2 ≤ widthOf s p) :
    (print p sym col page s).trace =
      s.trace ++ (glyphEvents s.params (widthOf s p) (pagesOf s p) sym col page).map Output.event := by
  rw [print_eq sym col page hp hw, emitAll_trace, (onlyBuffers_draw p sym s).trace]

/-! ### The digit loop -/

theorem sameControl_printDigits (dp top col : Nat) (ds : List Nat) (s : State) :
    SameControl s (printDigits dp top col ds s) := by
  induction ds generalizing col s with
  | nil => exact .refl s
  | cons d rest ih => exact (sameControl_print dp d col top s).trans (ih _ _)

theorem length_buf_printDigits (dp top col : Nat) (ds : List Nat) (s : State) :
    (printDigits dp top col ds s).buf.length = s.buf.length := by
  induction ds generalizing col s with
  | nil => rfl
  | cons d rest ih => exact (ih _ _).trans (length_buf_print ..)

theorem trace_printDigits {s : State} {dp : Nat} (top col : Nat) (ds : List Nat) (hp : dp < s.buf.length)
    (hw : 2 ≤ widthOf s dp) :
    (printDigits dp top col ds s).trace =
      s.trace ++ (digitEvents s.params (widthOf s dp) (pagesOf s dp) top col ds).map Output.event := by
  induction ds generalizing col s with
  | nil => simp [printDigits, digitEvents]
  | cons d rest ih =>
    have hc := sameControl_print dp d col top s
    unfold printDigits digitEvents
    rw [ih _ (by rw [length_buf_print]; exact hp) (by rw [hc.widthOf]; exact hw), trace_print d col top hp hw, hc.params,
      hc.widthOf, hc.pagesOf, List.map_append, List.append_assoc]
    rfl

theorem afterDigits_eq (s : State) (dp col : Nat) (ds : List Nat) :
    afterDigits s.params (widthOf s dp) col ds = col + digitsExtent s dp ds := by
  induction ds generalizing col with
  | nil => rfl
  | cons d rest ih =>
    unfold afterDigits digitsExtent
    rw [ih]
    unfold nextColumn glyphWidth
    omega

/-! ### SetNumber -/

theorem sameControl_setNumber (f : Nat) (v : Int) (lbl : Nat) (s : State) : SameControl s (setNumber f v lbl s) := by
  unfold setNumber clear
  exact ((sameControl_emitAll ..).trans (sameControl_printDigits ..)).trans (sameControl_print ..)

theorem length_buf_setNumber (f : Nat) (v : Int) (lbl : Nat) (s : State) :
    (setNumber f v lbl s).buf.length = s.buf.length := by
  unfold setNumber clear
  rw [length_buf_print, length_buf_printDigits]
  rfl

/-- The events of SetNumber are those of the closed form: they depend on the stroke table, the descriptor, the geometries and
the operands alone (R176, R183). -/
theorem trace_setNumber {s : State} {f : Nat} (v : Int) (lbl : Nat) (hd : (desc s f).dp.toNat < s.buf.length)
    (hl : (desc s f).lp.toNat < s.buf.length) (hwd : 2 ≤ widthOf s (desc s f).dp.toNat)
    (hwl : 2 ≤ widthOf s (desc s f).lp.toNat) :
    (setNumber f v lbl s).trace = s.trace ++ (fieldEvents s.params (ctx s (desc s f).dp.toNat)
      (ctx s (desc s f).lp.toNat) (desc s f) v lbl).map Output.event := by
  have h1 : SameControl s (clear (desc s f).dp.toNat (desc s f).x.toNat (desc s f).page.toNat (desc s f).maxw.toNat s) :=
    sameControl_emitAll ..
  have h12 := h1.trans (sameControl_printDigits (desc s f).dp.toNat (desc s f).page.toNat (desc s f).x.toNat (decompose v) _)
  unfold setNumber
  simp only
  rw [trace_print _ _ _ (by rw [length_buf_printDigits]; exact hl) (by rw [h12.widthOf]; exact hwl),
    trace_printDigits _ _ _ (show _ < (clear _ _ _ _ s).buf.length from hd) (by rw [h1.widthOf]; exact hwd), h12.params, h12.widthOf, h12.pagesOf, h1.params, h1.widthOf,
    h1.pagesOf]
  unfold fieldEvents clear
  rw [emitAll_trace, ← afterDigits_eq]
  simp only [List.map_append, List.append_assoc]
  rfl

/-! ### Decompose -/

/-- The number a list of digits spells, least significant first. -/
def valueUp : List Nat → Nat
  | [] => 0
  | d :: rest => d + 10 * valueUp rest

theorem valueUp_digitsUp (fuel m : Nat) (h : m < fuel) : valueUp (digitsUp fuel m) = m := by
  induction fuel generalizing m with
  | zero => omega
  | succ n ih =>
    unfold digitsUp valueUp
    split
    · simp only [valueUp]; omega
    · rw [ih _ (by omega)]; omega

theorem digitsUp_lt (fuel m : Nat) : ∀ d ∈ digitsUp fuel m, d < 10 := by
  induction fuel generalizing m with
  | zero => simp [digitsUp]
  | succ n ih =>
    intro d hd
    unfold digitsUp at hd
    rcases List.mem_cons.mp hd with rfl | hd
    · omega
    · split at hd
      · simp at hd
      · exact ih _ d hd

theorem length_digitsUp_le (fuel m k : Nat) (h : m < 10 ^ (k + 1)) : (digitsUp fuel m).length ≤ k + 1 := by
  induction fuel generalizing m k with
  | zero => simp [digitsUp]
  | succ n ih =>
    unfold digitsUp
    split
    · simp
    · cases k with
      | zero => omega
      | succ k =>
        have := ih (m / 10) k (by rw [pow_succ] at h; omega)
        simpa using this

theorem length_decompose_le (v : Int) (h : FitsValue v) : (decompose v).length ≤ 6 := by
  have := length_digitsUp_le (v.natAbs + 1) v.natAbs 4 (by have := h.1; have := h.2; omega)
  unfold decompose
  rw [List.length_reverse, List.length_append]
  split <;> simp <;> omega

theorem mem_decompose_le (v : Int) : ∀ d ∈ decompose v, d ≤ 10 := by
  intro d hd
  unfold decompose at hd
  rcases List.mem_append.mp (List.mem_reverse.mp hd) with hd | hd
  · exact Nat.le_of_lt (digitsUp_lt _ _ d hd)
  · split at hd
    · simp [symMinus] at hd; omega
    · simp at hd

end Sys2Proof.Machine
end

