-- ==== Sys2Proof/Laws/Step.lean ====
section
/-! SUPPORT. What a step, a word and a command can do: the cases of step, the frame of every command's effect, the responses,
and the checks that pass on usable printers and fields. -/

namespace Sys2Proof.Machine

/-! ### Step and accept -/

theorem step_eq_takeInput {s : State} (h : s.params.Legal) : step s = takeInput s := by
  unfold step
  rw [if_pos h]

theorem step_presentWord {s : State} (h : s.params.Legal) (cw : Word) : step (presentWord cw s) = accept cw s := by
  unfold step
  rw [if_pos (show (presentWord cw s).params.Legal from h)]
  rfl

/-- Everything a step can do: nothing, a reset, or one command word. -/
theorem step_cases {s t : State} (h : step s = .next t) :
    s.params.Legal ∧ ((s.inputs = [] ∧ t = s) ∨
      (∃ rest, s.inputs = .reset :: rest ∧ t = applyReset { s with inputs := rest }) ∨
      ∃ cw rest, s.inputs = .command cw :: rest ∧ accept cw { s with inputs := rest } = .next t) := by
  unfold step at h
  split at h
  · refine ⟨‹_›, ?_⟩
    unfold takeInput at h
    split at h
    · cases h
      exact .inl ⟨‹_›, rfl⟩
    · exact .inr (.inr ⟨_, _, ‹_›, h⟩)
    · cases h
      exact .inr (.inl ⟨_, ‹_›, rfl⟩)
  · cases h

/-- Everything a word can do: it is illegal, or it runs the command it spells. -/
theorem accept_cases {cw : Word} {s t : State} (h : accept cw s = .next t) :
    t = illegalWord cw s ∨ ∃ i, decode cw = .instr i ∧ exec i s = .next t := by
  unfold accept at h
  split at h
  · exact .inr ⟨_, ‹_›, h⟩
  · cases h
    exact .inl rfl

theorem decode_of_opcode (cw : Word) {op : Nat} (h : bits cw 31 28 = op) :
    decode cw = decodeFields op (bits cw 27 24) (bits cw 23 16) (bits cw 15 8) (bits cw 7 0) := by
  unfold decode
  rw [h]

theorem spell_eq_instr {zeros : Nat} {i j : Instr} (h : spell zeros i = .instr j) : zeros = 0 ∧ i = j := by
  unfold spell at h
  split at h
  · cases h
    exact ⟨‹_›, rfl⟩
  · cases h

/-- While HALTED every command but RDREG is discarded (R204). -/
theorem exec_halted {i : Instr} {s : State} (h : s.fault = true) (hi : ∀ addr, i ≠ .rdreg addr) :
    exec i s = .next (discard s) := by
  rcases exec_eq_command i s with ⟨addr, rfl⟩ | ⟨checks, effect, he⟩
  · exact absurd rfl (hi addr)
  · rw [he, command_halted h]

/-! ### Responses -/

theorem responseWord_ok (b : Byte) : responseWord codeOk b = b.zeroExtend 16 := by revert b; decide

theorem respond_ok (s : State) (b : Byte) :
    respond s codeOk b = { s with trace := s.trace ++ [.response (b.zeroExtend 16)] } := by
  unfold respond
  rw [responseWord_ok]

theorem respond_ok_zero (s : State) : respond s codeOk 0#8 = { s with trace := s.trace ++ [.response 0x0000#16] } := by
  rw [respond_ok]
  rfl

theorem responseWord_fault (code : FaultCode) :
    responseWord code.number 0#8 = BitVec.ofNat 16 (code.number.toNat * 4096) := by
  cases code <;> decide

/-! ### What the effect of a command can do -/

/-- The fault flag is as before, and the output grew by events alone. -/
def EmitsOnly (s t : State) : Prop := t.fault = s.fault ∧ ∃ es : List Event, t.trace = s.trace ++ es.map Output.event

theorem EmitsOnly.refl (s : State) : EmitsOnly s s := ⟨rfl, [], by simp⟩

theorem EmitsOnly.trans {s t u : State} (h : EmitsOnly s t) (h' : EmitsOnly t u) : EmitsOnly s u := by
  obtain ⟨f, es, e⟩ := h
  obtain ⟨f', es', e'⟩ := h'
  exact ⟨f'.trans f, es ++ es', by rw [e', e]; simp⟩

theorem OnlyBuffers.emitsOnly {s t : State} (h : OnlyBuffers s t) : EmitsOnly s t :=
  ⟨h.sameControl.fault, [], by rw [h.trace]; simp⟩

theorem emitsOnly_emitAll (s : State) (es : List Event) : EmitsOnly s (emitAll s es) := ⟨rfl, es, rfl⟩

theorem emitsOnly_print (p sym col page : Nat) (s : State) : EmitsOnly s (print p sym col page s) :=
  (onlyBuffers_draw p sym s).emitsOnly.trans (emitsOnly_emitAll ..)

theorem emitsOnly_printDigits (dp top col : Nat) (ds : List Nat) (s : State) :
    EmitsOnly s (printDigits dp top col ds s) := by
  induction ds generalizing col s with
  | nil => exact .refl s
  | cons d rest ih => exact (emitsOnly_print ..).trans (ih ..)

theorem emitsOnly_setNumber (f : Nat) (v : Int) (lbl : Nat) (s : State) : EmitsOnly s (setNumber f v lbl s) := by
  unfold setNumber clear
  exact ((emitsOnly_emitAll ..).trans (emitsOnly_printDigits ..)).trans (emitsOnly_print ..)

/-- Every command but RDREG is a frame around an effect that sends events alone and leaves the fault flag. -/
theorem exec_emitsOnly (i : Instr) (s : State) :
    (∃ addr, i = .rdreg addr) ∨
      ∃ checks effect, exec i s = .next (command i checks effect s) ∧ EmitsOnly s (effect s).1 := by
  cases i with
  | rdreg addr => exact .inl ⟨addr, rfl⟩
  | nop => exact .inr ⟨_, _, rfl, .refl _⟩
  | pcfg => exact .inr ⟨_, _, rfl, rfl, [], by simp [setCtx]⟩
  | fcfga => exact .inr ⟨_, _, rfl, rfl, [], by simp [setDesc]⟩
  | fcfgb => exact .inr ⟨_, _, rfl, rfl, [], by simp [setDesc]⟩
  | bclr => exact .inr ⟨_, _, rfl, (onlyBuffers_memZero ..).emitsOnly⟩
  | lineh => exact .inr ⟨_, _, rfl, (onlyBuffers_lineH ..).emitsOnly⟩
  | linev => exact .inr ⟨_, _, rfl, (onlyBuffers_lineV ..).emitsOnly⟩
  | glyph => exact .inr ⟨_, _, rfl, (onlyBuffers_draw ..).emitsOnly⟩
  | push => exact .inr ⟨_, _, rfl, emitsOnly_emitAll ..⟩
  | print => exact .inr ⟨_, _, rfl, emitsOnly_print ..⟩
  | pclear => exact .inr ⟨_, _, rfl, emitsOnly_emitAll ..⟩
  | setnum => exact .inr ⟨_, _, rfl, emitsOnly_setNumber ..⟩
  | brd => exact .inr ⟨_, _, rfl, .refl _⟩

/-- A command keeps what its effect keeps, for everything but the output and the fault state. -/
theorem command_keeps {α : Type} (g : State → α) (htrace : ∀ (s : State) tr, g { s with trace := tr } = g s)
    (hfault : ∀ (s : State) c w b, g { s with fcode := c, fcmd := w, fault := b } = g s) {i : Instr}
    {checks : List (Bool × FaultCode)} {effect : State → State × Byte} {s : State} (h : g (effect s).1 = g s) :
    g (command i checks effect s) = g s := by
  rcases command_cases i checks effect s with ⟨_, h'⟩ | ⟨_, code, _, h'⟩ | ⟨_, _, h'⟩
  · rw [h']; exact htrace s _
  · rw [h']; unfold raiseFault respond; rw [htrace, hfault]
  · rw [h']; unfold respond; rw [htrace]; exact h

/-! ### Checks -/

theorem firstFault_singleton {check : Bool × FaultCode} (h : firstFault [check] = none) : check.1 = false := by
  obtain ⟨failed, code⟩ := check
  cases failed
  · rfl
  · cases h

/-- A command whose checks pass runs on a usable printer. -/
theorem usablePrinter_of_firstFault {s : State} {p : Nat} {rest : List (Bool × FaultCode)}
    (h : firstFault (usablePrinter s p ++ rest) = none) : UsablePrinter s p ∧ firstFault rest = none := by
  simp only [usablePrinter, printerExists, printerConfigured, List.cons_append, List.nil_append, firstFault_cons] at h
  split at h
  · cases h
  · split at h
    · cases h
    · rename_i h1 h2
      simp at h1 h2
      exact ⟨⟨by omega, h2⟩, h⟩

theorem firstFault_usablePrinter_nil {s : State} {p : Nat} (h : UsablePrinter s p) :
    firstFault (usablePrinter s p) = none := by
  have := firstFault_usablePrinter h []
  rwa [List.append_nil] at this

theorem firstFault_symbolChecks {s : State} {p sym : Nat} (hp : UsablePrinter s p) (h : sym < 15) :
    firstFault (symbolChecks s p sym) = none := by
  rw [symbolChecks, firstFault_usablePrinter hp]
  simp [symbolValid, firstFault, Config.nsym, Nat.not_le.2 h]

theorem firstFault_setnumChecks {s : State} {f lbl : Nat} (hf : UsableField s f) (hl : lbl < 15)
    (hp : pagesOf s (desc s f).lp.toNat ≤ (desc s f).page.toNat + pagesOf s (desc s f).dp.toNat) :
    firstFault (setnumChecks s f lbl) = none := by
  simp [setnumChecks, firstFault, fieldExists, symbolValid, hf.2.1, hf.2.2, Config.nsym, Nat.not_le.2 hl,
    Nat.not_le.2 hf.1, Nat.not_lt.2 hp]

theorem exec_completes {i : Instr} {checks : List (Bool × FaultCode)} {effect : State → State × Byte} {s : State}
    (h : Running s) (he : exec i s = .next (command i checks effect s)) (hf : firstFault checks = none) :
    exec i s = .next (respond (effect s).1 codeOk (effect s).2) := by
  rw [he, command_completes h hf]

end Sys2Proof.Machine
end

