-- ==== Sys2Proof/Laws/Invariant.lean ====
section
/-! SUPPORT. What the invariant gives, and that every named operation keeps it. -/

namespace Sys2Proof.Machine

theorem widthOf_lt (s : State) (p : Nat) : widthOf s p < 256 := (ctx s p).w.isLt

theorem glyphWidth_lt (s : State) (p sym : Nat) : glyphWidth s p sym < 256 :=
  Nat.lt_of_le_of_lt (drawnWidth_le ..) (widthOf_lt s p)

/-! ### What the invariant gives -/

theorem State.Inv.buf_lt {s : State} (h : s.Inv) {p : Nat} (hp : UsablePrinter s p) : p < s.buf.length := by
  rw [h.buf_length]
  exact hp.1

theorem State.Inv.geometry {s : State} (h : s.Inv) {p : Nat} (hp : UsablePrinter s p) :
    2 ≤ widthOf s p ∧ 1 ≤ pagesOf s p := by
  have := h.ctx_ok p hp.1
  unfold CtxOk at this
  rw [if_pos hp.2] at this
  exact ⟨this.1, this.2.1⟩

theorem State.Inv.pages_le {s : State} (h : s.Inv) {p : Nat} (hp : UsablePrinter s p) : pagesOf s p ≤ 31 := by
  have := h.ctx_ok p hp.1
  unfold CtxOk at this
  rw [if_pos hp.2] at this
  have := h.legal.2.2.2.1.2
  unfold pagesOf
  omega

theorem State.Inv.printers {s : State} (h : s.Inv) {f : Nat} (hf : UsableField s f) :
    UsablePrinter s (desc s f).dp.toNat ∧ UsablePrinter s (desc s f).lp.toNat := by
  have := (h.desc_ok f hf.1).1
  rw [if_pos hf.2.1] at this
  exact this

theorem State.Inv.buffersOk {s : State} (h : s.Inv) : BuffersOk s := by
  intro p
  by_cases hp : p < s.params.nprn
  · exact ⟨h.buf_wf p hp, h.buf_bound p hp⟩
  · have : bufOf s p = [] := by
      unfold bufOf
      rw [List.getD, List.getElem?_eq_none (by rw [h.buf_length]; omega)]
      rfl
    rw [this]
    exact ⟨List.Pairwise.nil, by simp⟩

theorem SameControl.usablePrinter {s t : State} (h : SameControl s t) {p : Nat} (hp : UsablePrinter s p) :
    UsablePrinter t p := by
  unfold UsablePrinter at *
  rw [h.params, h.ctx]
  exact hp

theorem State.Inv.after {s t : State} (h : s.Inv) (hs : SameControl s t) (hb : t.buf.length = s.buf.length) {p : Nat}
    (hp : UsablePrinter s p) : p < t.buf.length ∧ 2 ≤ widthOf t p ∧ 1 ≤ pagesOf t p := by
  rw [hb, hs.widthOf, hs.pagesOf]
  exact ⟨h.buf_lt hp, h.geometry hp⟩

/-! ### Events -/

theorem events_of_response {s t : State} {rw : Reply} (h : t.trace = s.trace ++ [.response rw]) : events t = events s := by
  unfold events
  rw [h]
  simp

theorem events_of_events {s t : State} {es : List Event} (h : t.trace = s.trace ++ es.map Output.event) :
    events t = events s ++ es := by
  unfold events
  rw [h, List.filterMap_append]
  congr 1
  induction es with
  | nil => rfl
  | cons a r ih => simp

/-! ### What keeps the invariant -/

theorem buffersOk_congr {s t : State} (h1 : t.buf = s.buf) (h2 : t.pc = s.pc) (h : BuffersOk s) : BuffersOk t := by
  intro p
  have := h p
  unfold bufOf widthOf pagesOf ctx at *
  rw [h1, h2]
  exact this

theorem inv_of_sameControl {s t : State} (h : s.Inv) (hs : SameControl s t) (hb : t.buf.length = s.buf.length)
    (hk : BuffersOk t) (he : ∀ e ∈ events t, EventFits e) : t.Inv := by
  refine ⟨by rw [hs.params]; exact h.legal, by rw [hs.params, hs.pc]; exact h.pc_length,
    by rw [hs.params, hb]; exact h.buf_length, by rw [hs.params, hs.fd]; exact h.fd_length, ?_, ?_, fun p _ => (hk p).1,
    fun p _ => (hk p).2, by rw [hs.fault, hs.fcode]; exact h.fault_iff, by rw [hs.fcode]; exact h.fcode_le,
    by rw [hs.fault, hs.fcmd]; exact h.fcmd_zero, he⟩
  · intro p hp
    rw [hs.params] at hp ⊢
    rw [hs.ctx]
    exact h.ctx_ok p hp
  · intro f hf
    rw [hs.params] at hf
    have := h.desc_ok f hf
    rw [hs.desc]
    unfold DescOk UsablePrinter at *
    rw [hs.params, hs.ctx, hs.ctx]
    exact this

theorem inv_respond {s : State} (h : s.Inv) (code : BitVec 4) (v : Byte) : (respond s code v).Inv :=
  inv_of_sameControl h (sameControl_respond ..) rfl (buffersOk_congr (s := s) rfl rfl h.buffersOk)
    (by rw [events_of_response (s := s) rfl]; exact h.events_fit)

theorem inv_raiseFault {s : State} (h : s.Inv) (code : FaultCode) (cw : Word) : (raiseFault code cw s).Inv := by
  apply inv_respond
  exact ⟨h.legal, h.pc_length, h.buf_length, h.fd_length, h.ctx_ok, h.desc_ok, h.buf_wf, h.buf_bound,
    by simpa using code.number_ne_zero, code.number_le, by simp, h.events_fit⟩

theorem inv_inputs {s : State} (h : s.Inv) (rest : List HostInput) : ({ s with inputs := rest } : State).Inv :=
  ⟨h.legal, h.pc_length, h.buf_length, h.fd_length, h.ctx_ok, h.desc_ok, h.buf_wf, h.buf_bound, h.fault_iff, h.fcode_le,
    h.fcmd_zero, h.events_fit⟩

/-- A command keeps the invariant when its effect does wherever its checks pass. -/
theorem inv_command {i : Instr} {checks : List (Bool × FaultCode)} {effect : State → State × Byte} {s : State} (h : s.Inv)
    (he : Running s → firstFault checks = none → (effect s).1.Inv) : (command i checks effect s).Inv := by
  rcases command_cases i checks effect s with ⟨_, h'⟩ | ⟨_, code, _, h'⟩ | ⟨h1, h0, h'⟩
  · rw [h']; exact inv_respond h ..
  · rw [h']; exact inv_raiseFault h ..
  · rw [h']; exact inv_respond (he h1 h0) ..

theorem inv_of_onlyBuffers {s t : State} (h : s.Inv) (ho : OnlyBuffers s t) (hk : BuffersOk t) : t.Inv :=
  inv_of_sameControl h ho.sameControl ho.2 hk (by unfold events; rw [ho.trace]; exact h.events_fit)

theorem inv_emitAll {s : State} (h : s.Inv) {es : List Event} (he : ∀ e ∈ es, EventFits e) : (emitAll s es).Inv :=
  inv_of_sameControl h (sameControl_emitAll ..) rfl (buffersOk_congr (s := s) rfl rfl h.buffersOk) (by
    rw [events_of_events (emitAll_trace ..)]
    intro e h'
    rcases List.mem_append.mp h' with h' | h'
    · exact h.events_fit e h'
    · exact he e h')

theorem inv_print {s : State} (h : s.Inv) {p : Nat} (hp : UsablePrinter s p) (sym col page : Nat) (hc : col ≤ 2358)
    (hpg : page + pagesOf s p ≤ 286) : (print p sym col page s).Inv := by
  unfold print push
  have ho := onlyBuffers_draw p sym s
  have hw := h.geometry hp
  refine inv_emitAll (inv_of_onlyBuffers h ho (buffersOk_draw sym hw.1 hw.2 h.buffersOk)) fun e he => ?_
  obtain ⟨i, hi, rfl⟩ := List.mem_map.mp he
  have hi := List.mem_range.mp hi
  rw [ho.pagesOf] at hi
  have := glyphWidth_lt s p sym
  exact ⟨by omega, hc, by omega, by simp [pageRun]⟩

theorem inv_clear {s : State} (h : s.Inv) {p : Nat} (hp : UsablePrinter s p) (col page width : Nat) (hc : col ≤ 2358)
    (hpg : page ≤ 255) (hw : width ≤ 255) : (clear p col page width s).Inv := by
  unfold clear
  refine inv_emitAll h fun e he => ?_
  obtain ⟨i, hi, rfl⟩ := List.mem_map.mp he
  have hi := List.mem_range.mp hi
  have := h.pages_le hp
  exact ⟨by omega, hc, hw⟩

/-- The digit loop keeps the invariant, and moves right by at most 340 columns a symbol (R181). -/
theorem inv_printDigits (ds : List Nat) : ∀ {s : State} (_ : s.Inv) {p : Nat} (_ : UsablePrinter s p) (top col : Nat)
    (_ : col + 340 * ds.length ≤ 2358) (_ : top ≤ 255),
    (printDigits p top col ds s).Inv ∧ digitsExtent s p ds ≤ 340 * ds.length := by
  induction ds with
  | nil => intro s h p hp top col hc hpg; exact ⟨h, Nat.le_refl _⟩
  | cons d r ih =>
    intro s h p hp top col hc hpg
    simp only [List.length_cons] at hc ⊢
    have hs := sameControl_print p d col top s
    have := glyphWidth_lt s p d
    have := widthOf_lt s p
    have hg : digitGap (widthOf s p) ≤ 85 := by unfold digitGap; omega
    have h1 := ih (inv_print h hp d col top (by omega) (by have := h.pages_le hp; omega)) (hs.usablePrinter hp) top
      (col + glyphWidth s p d + digitGap (widthOf s p)) (by omega) hpg
    refine ⟨h1.1, ?_⟩
    have := (ih h hp top (col + glyphWidth s p d + digitGap (widthOf s p)) (by omega) hpg).2
    unfold digitsExtent
    omega

/-! ### Register files -/

theorem ctx_setCtx {s : State} {p : Nat} (hp : p < s.pc.length) (c : PrinterCtx) (q : Nat) :
    ctx (setCtx s p c) q = if q = p then c else ctx s q := by
  split
  · subst_vars; simp [ctx, setCtx, hp]
  · rename_i h; simp [ctx, setCtx, List.getD, List.getElem?_set_ne (Ne.symm h)]

theorem desc_setDesc {s : State} {f : Nat} (hf : f < s.fd.length) (d : FieldDesc) (g : Nat) :
    desc (setDesc s f d) g = if g = f then d else desc s g := by
  split
  · subst_vars; simp [desc, setDesc, hf]
  · rename_i h; simp [desc, setDesc, List.getD, List.getElem?_set_ne (Ne.symm h)]

/-! ### Buffers that Print leaves alone -/

theorem memRead_print_frame {s t : State} (h : s.Inv) (hs : SameControl s t) (hb : t.buf.length = s.buf.length) {p : Nat}
    (hp : UsablePrinter s p) (sym col page q i : Nat) (hq : q ≠ p ∨ widthOf s q * pagesOf s q ≤ i) :
    memRead (print p sym col page t) q i = memRead t q i := by
  have k := h.after hs hb hp
  rw [memRead_print]
  by_cases e : q = p
  · subst e
    rcases hq with hq | hq
    · exact absurd rfl hq
    · exact memRead_draw_above sym k.1 k.2.1 k.2.2 (by rw [hs.widthOf, hs.pagesOf]; exact hq)
  · exact memRead_draw_ne sym i k.1 e

theorem memRead_printDigits_frame {s t : State} (h : s.Inv) (hs : SameControl s t) (hb : t.buf.length = s.buf.length)
    {p : Nat} (hp : UsablePrinter s p) (ds : List Nat) (col top q i : Nat)
    (hq : q ≠ p ∨ widthOf s q * pagesOf s q ≤ i) : memRead (printDigits p top col ds t) q i = memRead t q i := by
  induction ds generalizing t col with
  | nil => rfl
  | cons d r ih =>
    unfold printDigits
    rw [ih (hs.trans (sameControl_print ..)) ((length_buf_print ..).trans hb), memRead_print_frame h hs hb hp _ _ _ _ _ hq]

end Sys2Proof.Machine
end

