-- ==== Sys2Proof/Laws/PerInstr.lean ====
section
/-! SUPPORT. The statement family OpcodeField: the opcode bits of a well-formed command's word are those of its row (R82). -/

namespace Sys2Proof.Laws.OpcodeField

/-- The opcode of each command, column `op` of R82. -/
def opcode : Instr → Nat
  | .nop => 0x0
  | .pcfg .. => 0x1
  | .fcfga .. => 0x2
  | .fcfgb .. => 0x3
  | .bclr .. => 0x4
  | .lineh .. => 0x5
  | .linev .. => 0x6
  | .glyph .. => 0x7
  | .push .. => 0x8
  | .print .. => 0x9
  | .pclear .. => 0xA
  | .setnum .. => 0xB
  | .brd .. => 0xC
  | .rdreg .. => 0xD

/-- `op = cw[31:28]` is the opcode of the row. -/
def Statement (i : Instr) : Prop := i.WellFormed → bits (encode i) 31 28 = opcode i

theorem nop : Statement .nop := fun _ =>
  bits_packFields_op (by decide) (by decide) (by decide) (by decide) (by decide)

theorem pcfg (p w pages : Nat) : Statement (.pcfg p w pages) := fun h =>
  bits_packFields_op (by decide) h.1 h.2.1 h.2.2 (by decide)

theorem fcfga (f dp lp : Nat) : Statement (.fcfga f dp lp) := fun h =>
  bits_packFields_op (by decide) h.1 (by have := h.2.1; have := h.2.2; omega) (by decide) (by decide)

theorem fcfgb (f x page maxw : Nat) : Statement (.fcfgb f x page maxw) := fun h =>
  bits_packFields_op (by decide) h.1 h.2.1 h.2.2.1 h.2.2.2

theorem bclr (p : Nat) : Statement (.bclr p) := fun h =>
  bits_packFields_op (by decide) h (by decide) (by decide) (by decide)

theorem lineh (p x y len : Nat) : Statement (.lineh p x y len) := fun h =>
  bits_packFields_op (by decide) h.1 h.2.1 h.2.2.1 h.2.2.2

theorem linev (p x y len : Nat) : Statement (.linev p x y len) := fun h =>
  bits_packFields_op (by decide) h.1 h.2.1 h.2.2.1 h.2.2.2

theorem glyph (p sym : Nat) : Statement (.glyph p sym) := fun h =>
  bits_packFields_op (by decide) h.1 (by decide) (by decide) h.2

theorem push (p col page len : Nat) : Statement (.push p col page len) := fun h =>
  bits_packFields_op (by decide) h.1 h.2.1 h.2.2.1 h.2.2.2

theorem print (p col page sym : Nat) : Statement (.print p col page sym) := fun h =>
  bits_packFields_op (by decide) h.1 h.2.1 h.2.2.1 h.2.2.2

theorem pclear (p col page width : Nat) : Statement (.pclear p col page width) := fun h =>
  bits_packFields_op (by decide) h.1 h.2.1 h.2.2.1 h.2.2.2

theorem setnum (f lbl : Nat) (value : Int) : Statement (.setnum f lbl value) := fun h =>
  bits_packFields_op (by decide) h.1 h.2.1 (by have := field16_lt value; omega) (by omega)

theorem brd (p x page : Nat) : Statement (.brd p x page) := fun h =>
  bits_packFields_op (by decide) h.1 h.2.1 h.2.2 (by decide)

theorem rdreg (addr : Nat) : Statement (.rdreg addr) := fun h =>
  bits_packFields_op (by decide) (by decide) h (by decide) (by decide)

end Sys2Proof.Laws.OpcodeField
end

