-- ==== Sys2Proof/Tests/Slice0.lean ====
section
/-! SUPPORT. The model's own tests: ill-formed terms, words of the spec's encoding, one-step vectors of 95_test_vectors.md
(their ids stand in the comments), and a witness for every statement that has hypotheses. -/

namespace Sys2Proof.Tests

open Sys2Proof Sys2Proof.Machine

/-! ### WellFormed: one ill-formed term for each check -/

theorem test_ill_formed_selector : ¬ (Instr.bclr 16).WellFormed := by decide
theorem test_ill_formed_pcfg : ¬ (Instr.pcfg 16 0 0).WellFormed ∧ ¬ (Instr.pcfg 0 256 0).WellFormed ∧
    ¬ (Instr.pcfg 0 0 256).WellFormed := by decide
theorem test_ill_formed_fcfga : ¬ (Instr.fcfga 16 0 0).WellFormed ∧ ¬ (Instr.fcfga 0 16 0).WellFormed ∧
    ¬ (Instr.fcfga 0 0 16).WellFormed := by decide
theorem test_ill_formed_fcfgb : ¬ (Instr.fcfgb 16 0 0 0).WellFormed ∧ ¬ (Instr.fcfgb 0 256 0 0).WellFormed ∧
    ¬ (Instr.fcfgb 0 0 256 0).WellFormed ∧ ¬ (Instr.fcfgb 0 0 0 256).WellFormed := by decide
theorem test_ill_formed_lineh : ¬ (Instr.lineh 16 0 0 0).WellFormed ∧ ¬ (Instr.lineh 0 256 0 0).WellFormed ∧
    ¬ (Instr.lineh 0 0 256 0).WellFormed ∧ ¬ (Instr.lineh 0 0 0 256).WellFormed := by decide
theorem test_ill_formed_linev : ¬ (Instr.linev 16 0 0 0).WellFormed ∧ ¬ (Instr.linev 0 256 0 0).WellFormed ∧
    ¬ (Instr.linev 0 0 256 0).WellFormed ∧ ¬ (Instr.linev 0 0 0 256).WellFormed := by decide
theorem test_ill_formed_glyph : ¬ (Instr.glyph 16 0).WellFormed ∧ ¬ (Instr.glyph 0 256).WellFormed := by decide
theorem test_ill_formed_push : ¬ (Instr.push 16 0 0 0).WellFormed ∧ ¬ (Instr.push 0 256 0 0).WellFormed ∧
    ¬ (Instr.push 0 0 256 0).WellFormed ∧ ¬ (Instr.push 0 0 0 256).WellFormed := by decide
theorem test_ill_formed_print : ¬ (Instr.print 16 0 0 0).WellFormed ∧ ¬ (Instr.print 0 256 0 0).WellFormed ∧
    ¬ (Instr.print 0 0 256 0).WellFormed ∧ ¬ (Instr.print 0 0 0 256).WellFormed := by decide
theorem test_ill_formed_pclear : ¬ (Instr.pclear 16 0 0 0).WellFormed ∧ ¬ (Instr.pclear 0 256 0 0).WellFormed ∧
    ¬ (Instr.pclear 0 0 256 0).WellFormed ∧ ¬ (Instr.pclear 0 0 0 256).WellFormed := by decide
theorem test_ill_formed_setnum : ¬ (Instr.setnum 16 0 0).WellFormed ∧ ¬ (Instr.setnum 0 256 0).WellFormed ∧
    ¬ (Instr.setnum 0 0 32768).WellFormed ∧ ¬ (Instr.setnum 0 0 (-32769)).WellFormed := by decide
theorem test_ill_formed_brd : ¬ (Instr.brd 16 0 0).WellFormed ∧ ¬ (Instr.brd 0 256 0).WellFormed ∧
    ¬ (Instr.brd 0 0 256).WellFormed := by decide
theorem test_ill_formed_rdreg : ¬ (Instr.rdreg 256).WellFormed := by decide

/-! ### Decoding: every command's word written out from its encoding (section 2.1 of 95_test_vectors.md) -/

/-- E1 to E7. -/
theorem test_decode_construction_and_lines :
    decode 0x00000000#32 = .instr .nop ∧ decode 0x10060200#32 = .instr (.pcfg 0 6 2) ∧
    decode 0x20010000#32 = .instr (.fcfga 0 0 1) ∧ decode 0x300A013C#32 = .instr (.fcfgb 0 10 1 60) ∧
    decode 0x40000000#32 = .instr (.bclr 0) ∧ decode 0x50010902#32 = .instr (.lineh 0 1 9 2) ∧
    decode 0x6002050E#32 = .instr (.linev 0 2 5 14) := by decide

/-- E8 to E14. -/
theorem test_decode_glyphs_fields_and_system :
    decode 0x70000002#32 = .instr (.glyph 0 2) ∧ decode 0x80640204#32 = .instr (.push 0 100 2 4) ∧
    decode 0x900A0201#32 = .instr (.print 0 10 2 1) ∧ decode 0xA00A0228#32 = .instr (.pclear 0 10 2 40) ∧
    decode 0xB00CFFF1#32 = .instr (.setnum 0 12 (-15)) ∧ decode 0xC0020100#32 = .instr (.brd 0 2 1) ∧
    decode 0xD0110000#32 = .instr (.rdreg 0x11) := by decide

/-- Operand fields with every bit its own: 1 and 0 in turn, written out bit by bit from the rows' encodings (R81, R82). -/
theorem test_decode_bit_by_bit :
    decode 0b0001_1010_11001100_01010101_00000000#32 = .instr (.pcfg 10 204 85) ∧
    decode 0b0010_0101_10010110_00000000_00000000#32 = .instr (.fcfga 5 9 6) ∧
    decode 0b1001_0011_10000001_01000010_00001110#32 = .instr (.print 3 129 66 14) ∧
    decode 0b1011_1100_00001011_10000000_00000001#32 = .instr (.setnum 12 11 (-32767)) := by decide

/-- X1 to X10. -/
theorem test_illegal_words :
    decode 0x00000001#32 = .illegal .nonzeroField ∧ decode 0xE0000000#32 = .illegal .reservedOpcode ∧
    decode 0xFFFFFFFF#32 = .illegal .reservedOpcode ∧ decode 0x11060201#32 = .illegal .nonzeroField ∧
    decode 0x20000100#32 = .illegal .nonzeroField ∧ decode 0x40010000#32 = .illegal .nonzeroField ∧
    decode 0x70010002#32 = .illegal .nonzeroField ∧ decode 0xC0000001#32 = .illegal .nonzeroField ∧
    decode 0xD1000000#32 = .illegal .nonzeroField ∧ decode 0xD0000001#32 = .illegal .nonzeroField := by decide

/-- E10, E12: the assembler's operand order is the contract's, not the word's (R90). -/
theorem test_assembler_operand_order :
    (assemble "PRINT" [.printer 0, .num 1, .num 10, .num 2]).map encode = some 0x900A0201#32 ∧
    (assemble "SETNUM" [.field 0, .num (-15), .num 12]).map encode = some 0xB00CFFF1#32 ∧
    (assemble "FCFGA" [.field 1, .printer 2, .printer 2]).map encode = some 0x21220000#32 := by decide

/-- The last operands R90 admits assemble. -/
theorem test_assembler_admitted :
    (assemble "PCFG" [.printer 15, .num 255, .num 0]).map encode = some 0x1FFF0000#32 ∧
    (assemble "SETNUM" [.field 15, .num (-32768), .num 14]).map encode = some 0xBF0E8000#32 := by decide

/-- An operand R90 does not admit is no command here (log 19, the model's choice). -/
theorem test_assembler_not_admitted :
    assemble "BCLR" [.printer 16] = none ∧ assemble "FCFGB" [.field 16, .num 0, .num 0, .num 0] = none ∧
    assemble "GLYPH" [.printer 0, .num (-1)] = none ∧ assemble "RDREG" [.num 256] = none ∧
    assemble "SETNUM" [.field 0, .num 32768, .num 0] = none ∧ assemble "SETNUM" [.field 0, .num 0, .num (-1)] = none ∧
    assemble "BCLR" [.field 0] = none := by decide

/-- Command 12 of program P4: `.word` places a raw word, here an illegal one (R91). -/
theorem test_assembler_word : assembleLine (.word 0xD1080000#32) = some 0xD1080000#32 ∧
    assembleLine (.command "RDREG" [.num 0x11]) = some 0xD0110000#32 := by decide

/-! ### Small states -/

/-- A buffer of `n` zero bytes. -/
def zeros (n : Nat) : Memory := (List.range n).map fun i => (i, 0#8)

/-- The reset state with printer 0 configured and its buffer written. -/
def small (w pages : Nat) (m : Memory) : State :=
  { State.reset with
    pc := ⟨true, BitVec.ofNat 8 w, BitVec.ofNat 8 pages⟩ :: List.replicate 3 .unconfigured
    buf := m :: List.replicate 3 [] }

/-- W 4, P 3, zeroed: the context of sections 2.2, 2.3 and 2.8. -/
def drawing : State := small 4 3 (zeros 12)

/-- The common start of section 2.6: p0 is 6 by 2, p1 is 4 by 1, f0 at column 10, page 1, width 60. -/
def field : State :=
  { State.reset with
    pc := [⟨true, 6#8, 2#8⟩, ⟨true, 4#8, 1#8⟩, .unconfigured, .unconfigured]
    fd := ⟨true, true, 0#4, 1#4, 10#8, 1#8, 60#8⟩ :: List.replicate 7 .unconfigured }

/-- `field` after the fault of program P4's second command. -/
def halted : State := { field with fault := true, fcode := 6#4, fcmd := 0x9000000F#32 }

/-- The largest build of R10. -/
def edgeParams : Config.Params := { nprn := 16, nfld := 16, bufsz := 7905, maxp := 31, stroke := defaultStroke }

/-- The largest build with everything at its top: p15 is 255 by 31, f15 at column, page and width 255. -/
def edge : State :=
  { State.fresh edgeParams 0 with
    pc := List.replicate 15 .unconfigured ++ [⟨true, 255#8, 31#8⟩]
    fd := List.replicate 15 .unconfigured ++ [⟨true, true, 15#4, 15#4, 255#8, 255#8, 255#8⟩] }

/-- The state after a step that executes one command word. -/
def after (cw : Word) (s : State) : State :=
  match step (presentWord cw s) with
  | .next t => t
  | _ => s

/-- The state after a command. -/
def ran (i : Instr) (s : State) : State :=
  match exec i s with
  | .next t => t
  | _ => s

/-- The bytes of column `x` of printer 0, top page first. -/
def column (s : State) (x : Nat) : List Byte := (List.range (pagesOf s 0)).map fun q => memRead s 0 (q * widthOf s 0 + x)

theorem drawing_inv : drawing.Inv :=
  ⟨by decide, by decide, by decide, by decide, by decide, by decide, by decide, by decide, by decide, by decide, by decide,
    by intro e h; cases h⟩

theorem field_inv : field.Inv :=
  ⟨by decide, by decide, by decide, by decide, by decide, by decide, by decide, by decide, by decide, by decide, by decide,
    by intro e h; cases h⟩

theorem halted_inv : halted.Inv :=
  ⟨by decide, by decide, by decide, by decide, by decide, by decide, by decide, by decide, by decide, by decide, by decide,
    by intro e h; cases h⟩

theorem edge_inv : edge.Inv :=
  ⟨by decide, by decide, by decide, by decide, by decide, by decide, by decide, by decide, by decide, by decide, by decide,
    by intro e h; cases h⟩

/-! ### One step: vectors of 95_test_vectors.md -/

/-- T70. -/
theorem test_nop : responses (after 0x00000000#32 field) = [0x0000#16] ∧ responses (after 0x00000000#32 halted) = [0xF000#16] := by
  decide

/-- The worked example of R151. -/
theorem test_pcfg : ctx (after 0x10060200#32 State.reset) 0 = ⟨true, 6#8, 2#8⟩ ∧
    responses (after 0x10060200#32 State.reset) = [0x0000#16] := by decide

/-- T99: ERR_RECFG comes before ERR_ALLOC. -/
theorem test_pcfg_recfg : responses (after 0x10000000#32 drawing) = [0x4000#16] := by decide

/-- T84: the label printer is not configured. -/
theorem test_fcfga_uncfg : responses (after 0x20010000#32 drawing) = [0x3000#16] := by decide

/-- The worked example of R171: f1 bound to p0 and p1. -/
theorem test_fcfga : desc (after 0x21010000#32 field) 1 = ⟨true, false, 0#4, 1#4, 0#8, 0#8, 0#8⟩ := by decide

/-- T73: after FCFGB f3 the field's registers read 02 00 00 05 06 07. -/
theorem test_fcfgb : (List.range 6).map (fun k => regRead (after 0x33050607#32 State.reset) (0x98 + k)) =
    [0x02#8, 0x00#8, 0x00#8, 0x05#8, 0x06#8, 0x07#8] := by decide

/-- T90: FCFGB twice. -/
theorem test_fcfgb_recfg : responses (after 0x300A013C#32 field) = [0x4000#16] := by decide

/-- BCLR of a 2 by 1 buffer that holds two bytes. -/
theorem test_bclr : pageRun (after 0x40000000#32 (small 2 1 [(0, 0x3F#8), (1, 0x21#8)])) 0 0 2 = [0x00#8, 0x00#8] := by decide

/-- T2. -/
theorem test_lineh : (List.range 3).map (fun q => pageRun (after 0x50010902#32 drawing) 0 q 4) =
    [[0x00#8, 0x00#8, 0x00#8, 0x00#8], [0x00#8, 0x02#8, 0x02#8, 0x00#8], [0x00#8, 0x00#8, 0x00#8, 0x00#8]] := by decide

/-- T9: a run past the last column does not wrap into the next page. -/
theorem test_lineh_range : (after 0x50020003#32 drawing).buf = drawing.buf ∧
    responses (after 0x50020003#32 drawing) = [0x7000#16] := by decide

/-- T19: head, one middle byte, tail. -/
theorem test_linev : column (after 0x6002050E#32 drawing) 2 = [0xE0#8, 0xFF#8, 0x07#8] := by decide

/-- T29a: the five-byte case, s = 7, len = 32. -/
theorem test_linev_five_bytes : column (after 0x60010720#32 (small 2 8 (zeros 16))) 1 =
    [0x80#8, 0xFF#8, 0xFF#8, 0xFF#8, 0x7F#8, 0x00#8, 0x00#8, 0x00#8] := by decide

/-- T30, symbol 2 over a buffer that nothing has written; the bytes rest on the default stroke table (log 2). -/
theorem test_glyph : pageRun (after 0x70000002#32 (small 6 1 [])) 0 0 6 = [0x39#8, 0x29#8, 0x29#8, 0x29#8, 0x29#8, 0x2F#8] ∧
    responses (after 0x70000002#32 (small 6 1 [])) = [0x0006#16] := by decide

/-- T30, symbol 1: half width. -/
theorem test_glyph_half : pageRun (after 0x70000001#32 (small 6 1 [])) 0 0 6 = [0x00#8, 0x00#8, 0x3F#8, 0x00#8, 0x00#8, 0x00#8] ∧
    responses (after 0x70000001#32 (small 6 1 [])) = [0x0003#16] := by decide

/-- The worked example of R154. -/
theorem test_push : events (after 0x80640202#32 (small 2 2 [(0, 0xE0#8), (1, 0xFF#8), (2, 0x07#8), (3, 0x02#8)])) =
    [.drawPage 2 100 2 [0xE0#8, 0xFF#8], .drawPage 3 100 2 [0x07#8, 0x02#8]] := by decide

/-- T95: len above W. -/
theorem test_push_range : responses (after 0x80000005#32 drawing) = [0x7000#16] := by decide

/-- The worked example of R156. -/
theorem test_print : events (after 0x900A0201#32 field) =
    [.drawPage 2 10 3 [0x00#8, 0x00#8, 0xFF#8], .drawPage 3 10 3 [0x00#8, 0x00#8, 0x0F#8]] ∧
    responses (after 0x900A0201#32 field) = [0x0003#16] := by decide

/-- Program P4, commands 2 and 12: the fault record, and an ill-formed RDREG while HALTED. -/
theorem test_print_symbol : { after 0x9000000F#32 field with trace := [] } = halted ∧
    responses (after 0x9000000F#32 field) = [0x6000#16] ∧ responses (after 0xD1080000#32 halted) = [0xF000#16] := by decide

/-- The worked example of R158. -/
theorem test_pclear : events (after 0xA00A0228#32 field) = [.clearPage 2 10 40, .clearPage 3 10 40] := by decide

/-- T65 (program P3). -/
theorem test_setnum : events (after 0xB00CFFF1#32 field) =
    [.clearPage 1 10 60, .clearPage 2 10 60,
     .drawPage 1 10 6 [0x40#8, 0x40#8, 0x40#8, 0x40#8, 0x40#8, 0x40#8],
     .drawPage 2 10 6 [0x00#8, 0x00#8, 0x00#8, 0x00#8, 0x00#8, 0x00#8],
     .drawPage 1 18 3 [0x00#8, 0x00#8, 0xFF#8], .drawPage 2 18 3 [0x00#8, 0x00#8, 0x0F#8],
     .drawPage 1 23 6 [0x7F#8, 0x41#8, 0x41#8, 0x41#8, 0x41#8, 0xC1#8],
     .drawPage 2 23 6 [0x08#8, 0x08#8, 0x08#8, 0x08#8, 0x08#8, 0x0F#8],
     .drawPage 2 32 4 [0x3F#8, 0x21#8, 0x21#8, 0x21#8]] := by decide

/-- T69: the label would start above page 0. -/
theorem test_setnum_layout :
    let s := { State.reset with
      pc := [⟨true, 6#8, 1#8⟩, ⟨true, 4#8, 3#8⟩, .unconfigured, .unconfigured]
      fd := ⟨true, true, 0#4, 1#4, 0#8, 1#8, 30#8⟩ :: List.replicate 7 .unconfigured }
    responses (after 0xB00B0000#32 s) = [0x8000#16] ∧ events (after 0xB00B0000#32 s) = [] := by decide

/-- The worked example of R138. -/
theorem test_brd : responses (after 0xC0010000#32 (small 2 1 [(1, 0xFF#8)])) = [0x00FF#16] := by decide

/-- T94: page not below P. -/
theorem test_brd_range : responses (after 0xC0000300#32 drawing) = [0x7000#16] := by decide

/-- T71, the first sixteen registers after reset. -/
theorem test_rdreg : (List.range 16).map (regRead State.reset) =
    [0x7A#8, 0x10#8, 0x04#8, 0x08#8, 0x00#8, 0x01#8, 0x0F#8, 0x08#8, 0#8, 0#8, 0#8, 0#8, 0#8, 0#8, 0#8, 0#8] := by decide

/-- T72 and P4: windows of a configured block, and the fault record low byte first. -/
theorem test_rdreg_windows : (List.range 8).map (fun k => regRead field (0x20 + k)) =
      [0x01#8, 0x06#8, 0x02#8, 0x00#8, 0x01#8, 0x04#8, 0x01#8, 0x00#8] ∧
    (List.range 8).map (fun k => regRead field (0x80 + k)) =
      [0x03#8, 0x00#8, 0x01#8, 0x0A#8, 0x01#8, 0x3C#8, 0x00#8, 0x00#8] ∧
    (List.range 6).map (fun k => regRead halted (8 + k)) = [0x01#8, 0x06#8, 0x0F#8, 0x00#8, 0x00#8, 0x90#8] := by decide

/-- T96, T97, T98, T103: the order of the checks (R209). -/
theorem test_priority : responses (after 0x7F010000#32 drawing) = [0x1000#16] ∧
    responses (after 0x79000063#32 drawing) = [0x2000#16] ∧ responses (after 0x71000063#32 drawing) = [0x3000#16] ∧
    responses (after 0x29000100#32 drawing) = [0x1000#16] := by decide

/-- A narrow "1" printed over an "8" leaves its right half (R239), on one display byte inside and one outside. -/
theorem test_sink : sinkAfter defaultSink 0x41#8 (events (after 0x90000001#32 field)) 0 2 = 0xFF#8 ∧
    sinkAfter defaultSink 0x41#8 (events (after 0x90000001#32 field)) 0 3 = 0x41#8 := by decide

/-- Program P3's picture: the minus bar, the label's left edge, and no byte outside the sink, whatever its size (R66, R10). -/
theorem test_picture : picture defaultSink (events (after 0xB00CFFF1#32 field)) 1 10 = some 0x40#8 ∧
    picture defaultSink (events (after 0xB00CFFF1#32 field)) 2 32 = some 0x3F#8 ∧
    picture defaultSink (events (after 0xB00CFFF1#32 field)) 8 10 = none ∧
    picture { dcols := 32, dpages := 3 } (events (after 0xB00CFFF1#32 field)) 2 31 = some 0x00#8 ∧
    picture { dcols := 32, dpages := 3 } (events (after 0xB00CFFF1#32 field)) 2 32 = none := by decide

/-! ### Witnesses: states and operands that meet the hypotheses of the statements -/

theorem witness_EncodedCommandDecodesBack : (Instr.setnum 15 255 (-32768)).WellFormed ∧
    (Instr.print 15 255 255 255).WellFormed ∧ Instr.nop.WellFormed := by decide

theorem witness_DecodedWordIsItsEncoding : decode 0xBFFF8000#32 = .instr (.setnum 15 255 (-32768)) := by decide

theorem witness_IllegalEncodings : State.reset.params.Legal ∧ Running State.reset ∧
    decode 0xD0000001#32 = .illegal .nonzeroField ∧ decode 0xE0000000#32 = .illegal .reservedOpcode := by decide

/-- Each disjunct of the first clause, by the least must-be-zero bit and by the greatest. -/
theorem witness_IllegalEncodings_clauses :
    (bits 0xF0000000#32 31 28 = 0xF ∧ bits 0xEFFFFFFF#32 31 28 = 0xE) ∧
    (bits 0x08000000#32 31 28 = 0 ∧ 0x08000000#32 &&& 0x0FFFFFFF#32 ≠ 0#32) ∧
    (bits 0x10000080#32 31 28 = 1 ∧ 0x10000080#32 &&& 0x000000FF#32 ≠ 0#32) ∧
    (bits 0x20008000#32 31 28 = 2 ∧ 0x20008000#32 &&& 0x0000FFFF#32 ≠ 0#32) ∧
    (bits 0x40800000#32 31 28 = 4 ∧ 0x40800000#32 &&& 0x00FFFFFF#32 ≠ 0#32) ∧
    (bits 0x70000100#32 31 28 = 7 ∧ 0x70000100#32 &&& 0x00FFFF00#32 ≠ 0#32) ∧
    (bits 0xC0000001#32 31 28 = 0xC ∧ 0xC0000001#32 &&& 0x000000FF#32 ≠ 0#32) ∧
    (bits 0xD8000000#32 31 28 = 0xD ∧ 0xD8000000#32 &&& 0x0F00FFFF#32 ≠ 0#32) := by decide

theorem witness_OpcodeRowsPartitionTheWords :
    ∃ r ∈ opcodeTable, r.Spells 0xBFFFFFFF#32 ∧ decode 0xBFFFFFFF#32 = .instr (.setnum 15 255 (-1)) :=
  ⟨⟨"SETNUM", 0xB0000000#32, 0xF0000000#32⟩, by decide⟩

theorem witness_StepRunsDecodedCommand : (presentWord 0x70000002#32 drawing).params.Legal ∧
    (presentWord 0x70000002#32 drawing).inputs = .command 0x70000002#32 :: [] ∧
    decode 0x70000002#32 = .instr (.glyph 0 2) := by decide

theorem witness_PresentedTableWordRunsNext : State.reset.params.Legal ∧
    decodeTableWord 32 0x10060200 = some (.pcfg 0 6 2) := by decide

theorem witness_ResetRequestTakesTheResetState : ({ halted with inputs := [.reset] } : State).params.Legal ∧
    ({ halted with inputs := [.reset] } : State).inputs = .reset :: [] := by decide

theorem witness_IdleStepChangesNothing : halted.params.Legal ∧ halted.inputs = [] := by decide

theorem witness_HaltedDiscardsAllButRdreg : halted.params.Legal ∧ halted.fault = true ∧
    ∀ addr, decode 0x00000000#32 ≠ .instr (.rdreg addr) := by
  refine ⟨by decide, rfl, fun addr h => ?_⟩
  rw [show decode 0x00000000#32 = .instr .nop by decide] at h
  cases h

theorem witness_HaltedDiscardsAllButRdreg_rdreg : halted.params.Legal ∧ halted.fault = true ∧
    decode 0xD0FF0000#32 = .instr (.rdreg 255) := by decide

theorem witness_HaltedDiscardsAllButRdreg_step : halted.fault = true ∧ halted.inputs.head? ≠ some .reset ∧
    step halted = .next halted := ⟨rfl, by decide, rfl⟩

theorem witness_FaultEntryIsPrecise : field.params.Legal ∧ Running field ∧
    step (presentWord 0x9000000F#32 field) = .next (after 0x9000000F#32 field) ∧ (after 0x9000000F#32 field).fault = true :=
  ⟨by decide, by decide, rfl, by decide⟩

theorem witness_OneResponseAfterAllEvents : edge.params.Legal ∧ halted.params.Legal := by decide

theorem witness_OnlyNamedCommandsWriteEachFile : exec .nop field = .next (ran .nop field) ∧
    (∀ p w pages, Instr.nop ≠ .pcfg p w pages) ∧ (∀ f dp lp, Instr.nop ≠ .fcfga f dp lp) ∧
    (∀ f x page maxw, Instr.nop ≠ .fcfgb f x page maxw) ∧ (∀ p, Instr.nop ≠ .bclr p) ∧
    (∀ p x y len, Instr.nop ≠ .lineh p x y len) ∧ (∀ p x y len, Instr.nop ≠ .linev p x y len) ∧
    (∀ p sym, Instr.nop ≠ .glyph p sym) ∧ (∀ p col page sym, Instr.nop ≠ .print p col page sym) ∧
    ∀ f lbl v, Instr.nop ≠ .setnum f lbl v := by
  refine ⟨rfl, ?_, ?_, ?_, ?_, ?_, ?_, ?_, ?_, ?_⟩ <;> intros <;> exact Instr.noConfusion

/-- The opcode hypothesis of the fourteen pseudocode statements, each by its least and its greatest word. -/
theorem witness_Pseudocode : State.reset.params.Legal ∧
    (bits 0x00000000#32 31 28 = 0x0 ∧ bits 0x0FFFFFFF#32 31 28 = 0x0) ∧
    (bits 0x10000000#32 31 28 = 0x1 ∧ bits 0x1FFFFFFF#32 31 28 = 0x1) ∧
    (bits 0x20000000#32 31 28 = 0x2 ∧ bits 0x2FFFFFFF#32 31 28 = 0x2) ∧
    (bits 0x30000000#32 31 28 = 0x3 ∧ bits 0x3FFFFFFF#32 31 28 = 0x3) ∧
    (bits 0x40000000#32 31 28 = 0x4 ∧ bits 0x4FFFFFFF#32 31 28 = 0x4) ∧
    (bits 0x50000000#32 31 28 = 0x5 ∧ bits 0x5FFFFFFF#32 31 28 = 0x5) ∧
    (bits 0x60000000#32 31 28 = 0x6 ∧ bits 0x6FFFFFFF#32 31 28 = 0x6) ∧
    (bits 0x70000000#32 31 28 = 0x7 ∧ bits 0x7FFFFFFF#32 31 28 = 0x7) ∧
    (bits 0x80000000#32 31 28 = 0x8 ∧ bits 0x8FFFFFFF#32 31 28 = 0x8) ∧
    (bits 0x90000000#32 31 28 = 0x9 ∧ bits 0x9FFFFFFF#32 31 28 = 0x9) ∧
    (bits 0xA0000000#32 31 28 = 0xA ∧ bits 0xAFFFFFFF#32 31 28 = 0xA) ∧
    (bits 0xB0000000#32 31 28 = 0xB ∧ bits 0xBFFFFFFF#32 31 28 = 0xB) ∧
    (bits 0xC0000000#32 31 28 = 0xC ∧ bits 0xCFFFFFFF#32 31 28 = 0xC) ∧
    (bits 0xD0000000#32 31 28 = 0xD ∧ bits 0xDFFFFFFF#32 31 28 = 0xD) := by decide

theorem witness_NopCompletes : Running State.reset := by decide

theorem witness_PcfgCompletes : (Instr.pcfg 15 255 31).WellFormed ∧ Running (State.fresh edgeParams 0) ∧
    15 < (State.fresh edgeParams 0).params.nprn ∧ (ctx (State.fresh edgeParams 0) 15).valid = false ∧ 2 ≤ 255 ∧ 1 ≤ 31 ∧
    31 ≤ (State.fresh edgeParams 0).params.maxp ∧ 255 * 31 ≤ (State.fresh edgeParams 0).params.bufsz := by decide

theorem witness_FcfgaCompletes : (Instr.fcfga 0 15 15).WellFormed ∧ Running edge ∧ 0 < edge.params.nfld ∧
    (desc edge 0).va = false ∧ UsablePrinter edge 15 := by decide

theorem witness_FcfgbCompletes : (Instr.fcfgb 14 255 255 255).WellFormed ∧ Running edge ∧ 14 < edge.params.nfld ∧
    (desc edge 14).vb = false := by decide

/-- BCLR, DrawnWidthIsHalfOrFull: the largest printer, and a byte inside, a byte above and another context (the clauses). -/
theorem witness_BclrCompletes : edge.Inv ∧ Running edge ∧ UsablePrinter edge 15 ∧
    7904 < widthOf edge 15 * pagesOf edge 15 ∧ widthOf edge 15 * pagesOf edge 15 ≤ 7905 :=
  ⟨edge_inv, by decide, by decide, by decide, by decide⟩

theorem witness_LinehCompletes : edge.Inv ∧ Running edge ∧ UsablePrinter edge 15 ∧ 254 < widthOf edge 15 ∧
    247 < 8 * pagesOf edge 15 ∧ 254 + 1 ≤ widthOf edge 15 :=
  ⟨edge_inv, by decide, by decide, by decide, by decide, by decide⟩

theorem witness_LinevCompletes : edge.Inv ∧ Running edge ∧ UsablePrinter edge 15 ∧ 254 < widthOf edge 15 ∧
    0 < 8 * pagesOf edge 15 ∧ 0 + 248 ≤ 8 * pagesOf edge 15 :=
  ⟨edge_inv, by decide, by decide, by decide, by decide, by decide⟩

theorem witness_LinevEqualsRowByRowReference : drawing.Inv ∧ Running drawing ∧ UsablePrinter drawing 0 ∧
    3 < widthOf drawing 0 ∧ 1 < 8 * pagesOf drawing 0 ∧ 1 + 23 ≤ 8 * pagesOf drawing 0 :=
  ⟨drawing_inv, by decide, by decide, by decide, by decide, by decide⟩

theorem witness_BrdCompletes : Running edge ∧ UsablePrinter edge 15 ∧ 254 < widthOf edge 15 ∧ 30 < pagesOf edge 15 := by decide

theorem witness_RdregCompletes : 255 < 256 := by decide

theorem witness_GlyphCompletes : edge.Inv ∧ Running edge ∧ UsablePrinter edge 15 ∧ 14 < 15 :=
  ⟨edge_inv, by decide, by decide, by decide⟩

theorem witness_GlyphReadsBackAsItsStrokes : field.Inv ∧ Running field ∧ UsablePrinter field 0 ∧ 1 < 15 ∧
    3 ≤ glyphWidth field 0 1 ∧ exec (.glyph 0 1) field = .next (ran (.glyph 0 1) field) :=
  ⟨field_inv, by decide, by decide, by decide, by decide, rfl⟩

theorem witness_DrawnWidthIsHalfOrFull : edge.Inv ∧ UsablePrinter edge 15 := ⟨edge_inv, by decide⟩

theorem witness_PushCompletes : Running edge ∧ UsablePrinter edge 15 ∧ 255 ≤ widthOf edge 15 := by decide

theorem witness_PrintCompletes : edge.Inv ∧ Running edge ∧ UsablePrinter edge 15 ∧ 14 < 15 :=
  ⟨edge_inv, by decide, by decide, by decide⟩

theorem witness_PclearCompletes : Running edge ∧ UsablePrinter edge 15 := by decide

theorem witness_SetnumCompletes : edge.Inv ∧ Running edge ∧ UsableField edge 15 ∧ 14 < 15 ∧ FitsValue (-32768) ∧
    pagesOf edge (desc edge 15).lp.toNat ≤ (desc edge 15).page.toNat + pagesOf edge (desc edge 15).dp.toNat :=
  ⟨edge_inv, by decide, by decide, by decide, by decide, by decide⟩

/-- Two printers, so that both clauses speak; `edge` meets the premises with one printer. -/
theorem witness_SetnumLeavesLastGlyphs : field.Inv ∧ Running field ∧ UsableField field 0 ∧ 12 < 15 ∧ FitsValue (-15) ∧
    pagesOf field (desc field 0).lp.toNat ≤ (desc field 0).page.toNat + pagesOf field (desc field 0).dp.toNat ∧
    exec (.setnum 0 12 (-15)) field = .next (ran (.setnum 0 12 (-15)) field) ∧ (desc field 0).dp ≠ (desc field 0).lp :=
  ⟨field_inv, by decide, by decide, by decide, by decide, by decide, rfl, by decide⟩

/-- `field`, and `field` with other events behind it and other bytes in its buffers. -/
theorem witness_SetnumKeepsNothingBetweenCalls : field.Inv ∧ (after 0xB00CFFF1#32 field).params = field.params ∧
    Running field ∧ UsableField field 0 ∧ desc field 0 = desc (after 0xB00CFFF1#32 field) 0 ∧
    ctx field 0 = ctx (after 0xB00CFFF1#32 field) 0 ∧ ctx field 1 = ctx (after 0xB00CFFF1#32 field) 1 ∧
    Running (after 0xB00CFFF1#32 field) ∧ FitsValue 32767 :=
  ⟨field_inv, by decide, by decide, by decide, by decide, by decide, by decide, by decide, by decide⟩

theorem witness_SetnumKeepsNothingBetweenCalls_inv : (after 0xB00CFFF1#32 field).Inv := by
  refine ⟨by decide, by decide, by decide, by decide, by decide, by decide, by decide, by decide, by decide, by decide,
    by decide, ?_⟩
  rw [test_setnum]
  simp [EventFits]

theorem witness_DecomposeGivesTheDecimalDigits : FitsValue (-32768) ∧ FitsValue 32767 ∧ FitsValue 0 := by decide

theorem witness_SystemRegistersRead : halted.params.Legal ∧ edge.params.Legal := by decide

/-- The windows' first and last addresses, and the first context and field the block does not have. -/
theorem witness_WindowRegistersRead : regRead field 0x1E = 0x73#8 ∧ regRead field 0x5F = 0#8 ∧ field.params.nprn ≤ 4 ∧
    regRead field (0x20 + 4 * 4) = 0#8 ∧ regRead edge (0x20 + 4 * 15 + 1) = 255#8 ∧ field.params.nfld ≤ 8 ∧
    regRead field (0x80 + 8 * 8) = 0#8 ∧ regRead edge (0x80 + 8 * 15 + 5) = 255#8 := by decide

theorem witness_UnnamedRegistersReadZero : (0x60 ≤ 0x60 ∧ 0x60 < 0x80) ∧ (0x60 ≤ 0x7F ∧ 0x7F < 0x80) := by decide

/-- A GLYPH about to be executed, and a reset about to be taken. -/
theorem witness_EveryStepKeepsTheInvariant : (presentWord 0x70000002#32 drawing).Inv ∧
    step (presentWord 0x70000002#32 drawing) = .next (after 0x70000002#32 drawing) ∧
    ({ halted with inputs := [.reset] } : State).Inv :=
  ⟨⟨by decide, by decide, by decide, by decide, by decide, by decide, by decide, by decide, by decide, by decide, by decide,
    by intro e h; cases h⟩, rfl,
   ⟨by decide, by decide, by decide, by decide, by decide, by decide, by decide, by decide, by decide, by decide, by decide,
    by intro e h; cases h⟩⟩

theorem witness_NoStepChangesTheParameters : step State.reset = .next State.reset := rfl

theorem witness_ConstructionIsFinalUntilReset : (presentWord 0x21010000#32 field).inputs.head? ≠ some .reset ∧
    step (presentWord 0x21010000#32 field) = .next (after 0x21010000#32 field) ∧ (ctx field 0).valid = true ∧
    (desc field 0).va = true ∧ (desc field 0).vb = true :=
  ⟨by decide, rfl, by decide, by decide, by decide⟩

/-- A position inside the printed rectangle (its last page and column) and one just right of it. -/
theorem witness_PrintReplacesExactlyItsRectangle : field.Inv ∧ Running field ∧ UsablePrinter field 0 ∧ 1 < 15 ∧
    exec (.print 0 10 2 1) field = .next (ran (.print 0 10 2 1) field) ∧ InSink defaultSink 3 12 ∧
    (2 ≤ 3 ∧ 3 < 2 + pagesOf field 0 ∧ 10 ≤ 12 ∧ 12 < 10 + drawnWidth (strokeOf field.params 1) (widthOf field 0)) ∧
    ¬ 13 < 10 + drawnWidth (strokeOf field.params 1) (widthOf field 0) :=
  ⟨field_inv, by decide, by decide, by decide, rfl, by decide, by decide, by decide⟩

/-- The last page and the last column of the field's rectangle. -/
theorem witness_SetnumErasesItsField : field.Inv ∧ Running field ∧ UsableField field 0 ∧ 12 < 15 ∧ FitsValue (-15) ∧
    pagesOf field (desc field 0).lp.toNat ≤ (desc field 0).page.toNat + pagesOf field (desc field 0).dp.toNat ∧
    exec (.setnum 0 12 (-15)) field = .next (ran (.setnum 0 12 (-15)) field) ∧ InSink defaultSink 2 69 ∧
    (desc field 0).page.toNat ≤ 2 ∧ 2 < (desc field 0).page.toNat + pagesOf field (desc field 0).dp.toNat ∧
    (desc field 0).x.toNat ≤ 69 ∧ 69 < (desc field 0).x.toNat + (desc field 0).maxw.toNat :=
  ⟨field_inv, by decide, by decide, by decide, by decide, by decide, rfl, by decide, by decide, by decide, by decide,
    by decide⟩

end Sys2Proof.Tests
end

section
/-! SUPPORT. The control-register map (R29 to R38): what an address of each window reads, what each register holds as a
number, and the statements about the map. -/

namespace Sys2Proof.Machine

/-! ### The windows of the map (R38) -/

section
variable (s : State)

theorem regRead_stroke {sym : Nat} (h : sym < 15) : regRead s (0x10 + sym) = strokeOf s.params sym := by
  have hsys : ¬ 0x10 + sym < 0x10 := by omega
  have hwin : 0x10 + sym < 0x20 := by omega
  have hsym : 0x10 + sym < 0x10 + Config.nsym := Nat.add_lt_add_left h _
  rw [regRead, if_neg hsys, if_pos hwin, if_pos hsym, Nat.add_sub_cancel_left]

theorem regRead_printer {p k : Nat} (hp : p < 16) (hk : k < 4) :
    regRead s (0x20 + 4 * p + k) = printerReg s p k := by
  have hsys : ¬ 0x20 + 4 * p + k < 0x10 := by omega
  have hstroke : ¬ 0x20 + 4 * p + k < 0x20 := by omega
  have hwin : 0x20 + 4 * p + k < 0x60 := by omega
  have hctx : (0x20 + 4 * p + k - 0x20) / 4 = p := by omega
  have hreg : (0x20 + 4 * p + k - 0x20) % 4 = k := by omega
  rw [regRead, if_neg hsys, if_neg hstroke, if_pos hwin, hctx, hreg]

theorem regRead_unnamedWindow {addr : Nat} (hlo : 0x60 ≤ addr) (hhi : addr < 0x80) : regRead s addr = 0#8 := by
  have hsys : ¬ addr < 0x10 := by omega
  have hstroke : ¬ addr < 0x20 := by omega
  have hprinter : ¬ addr < 0x60 := by omega
  rw [regRead, if_neg hsys, if_neg hstroke, if_neg hprinter, if_pos hhi]

theorem regRead_field {f k : Nat} (hf : f < 16) (hk : k < 8) :
    regRead s (0x80 + 8 * f + k) = fieldReg s f k := by
  have hsys : ¬ 0x80 + 8 * f + k < 0x10 := by omega
  have hstroke : ¬ 0x80 + 8 * f + k < 0x20 := by omega
  have hprinter : ¬ 0x80 + 8 * f + k < 0x60 := by omega
  have hnone : ¬ 0x80 + 8 * f + k < 0x80 := by omega
  have hwin : 0x80 + 8 * f + k < 0x100 := by omega
  have hfield : (0x80 + 8 * f + k - 0x80) / 8 = f := by omega
  have hreg : (0x80 + 8 * f + k - 0x80) % 8 = k := by omega
  rw [regRead, if_neg hsys, if_neg hstroke, if_neg hprinter, if_neg hnone, if_pos hwin, hfield, hreg]

end

/-! ### What a register holds -/

section
variable (s : State)

theorem toNat_statusReg : (statusReg s).toNat = if s.fault = true then 1 else 0 := by
  unfold statusReg; split <;> rfl

theorem toNat_fcodeReg : (fcodeReg s).toNat = s.fcode.toNat :=
  BitVec.toNat_setWidth_of_le (by decide)

/-- Byte `k` of FCMD is its bits 8k+7..8k (R32). -/
theorem toNat_fcmdReg (k : Nat) : (fcmdReg s k).toNat = bits s.fcmd (8 * k + 7) (8 * k) := by
  have hwidth : 8 * k + 7 + 1 - 8 * k = 8 := by omega
  rw [fcmdReg, bits, hwidth, BitVec.extractLsb'_toNat, Nat.shiftRight_eq_div_pow]

theorem bitReg_zero (b : Bool) : bitReg b 0 = if b then 0x01#8 else 0x00#8 := rfl

/-- FCTL holds VA in bit 0 and VB in bit 1 (R35). -/
theorem toNat_bitReg_or (va vb : Bool) :
    (bitReg va 0 ||| bitReg vb 1).toNat = (if va then 1 else 0) + (if vb then 2 else 0) := by
  cases va <;> cases vb <;> rfl

theorem printerReg_eq (p k : Nat) : printerReg s p k =
    if s.params.nprn ≤ p then 0#8
    else if k = 0 then (if (ctx s p).valid then 0x01#8 else 0x00#8)
    else if k = 1 then (ctx s p).w else if k = 2 then (ctx s p).pages else 0#8 := by
  unfold printerReg
  congr 1
  match k with
  | 0 => exact bitReg_zero _
  | 1 | 2 | _ + 3 => rfl

theorem toNat_fieldReg (f k : Nat) : (fieldReg s f k).toNat =
    if s.params.nfld ≤ f then 0
    else if k = 0 then (if (desc s f).va then 1 else 0) + (if (desc s f).vb then 2 else 0)
    else if k = 1 then (desc s f).dp.toNat else if k = 2 then (desc s f).lp.toNat
    else if k = 3 then (desc s f).x.toNat else if k = 4 then (desc s f).page.toNat
    else if k = 5 then (desc s f).maxw.toNat else 0 := by
  unfold fieldReg
  rw [apply_ite BitVec.toNat]
  congr 1
  match k with
  | 0 => exact toNat_bitReg_or _ _
  | 1 | 2 => exact BitVec.toNat_setWidth_of_le (by decide)
  | 3 | 4 | 5 | _ + 6 => rfl

end

/-- A parameter below 256 is read back whole. -/
theorem toNat_ofNat_byte {n : Nat} (h : n < 256) : (BitVec.ofNat 8 n).toNat = n :=
  (BitVec.toNat_ofNat n 8).trans (Nat.mod_eq_of_lt h)

/-- `BUFSZ` is read back from its two bytes, low byte first (R36). -/
theorem toNat_ofNat_lowHigh {n : Nat} (h : n < 65536) :
    (BitVec.ofNat 8 (n % 256)).toNat + 256 * (BitVec.ofNat 8 (n / 256)).toNat = n := by
  have hlow : (BitVec.ofNat 8 (n % 256)).toNat = n % 256 := toNat_ofNat_byte (by omega)
  have hhigh : (BitVec.ofNat 8 (n / 256)).toNat = n / 256 := toNat_ofNat_byte (by omega)
  rw [hlow, hhigh, Nat.mod_add_div]

/-- RDREG of a register that holds 0 answers the response word 0x0000 and leaves the rest of the state (R87, R191). -/
theorem exec_rdreg_of_zero {s : State} {addr : Nat} (h : regRead s addr = 0#8) :
    exec (.rdreg addr) s = .next { s with trace := s.trace ++ [.response 0x0000#16] } := by
  have hexec : exec (.rdreg addr) s = .next (respond s codeOk (regRead s addr)) := rfl
  rw [hexec, h]
  rfl

/-! ### The statements -/

/-- Settles O49: each register of 0x00..0x0D is its arm of the map, and a legal parameter fits its register. -/
theorem systemRegistersRead : Obligations.SystemRegistersRead := by
  unfold Obligations.SystemRegistersRead
  intro s hLegal
  obtain ⟨⟨-, hnprn⟩, ⟨-, hnfld⟩, ⟨-, hbufsz⟩, ⟨-, hmaxp⟩, -⟩ := hLegal
  refine ⟨rfl, rfl, ?nprn, ?nfld, ?bufsz, rfl, ?maxp, ?status, ?fcode, ?fcmd0, ?fcmd1, ?fcmd2, ?fcmd3⟩
  case nprn => exact toNat_ofNat_byte (by omega)
  case nfld => exact toNat_ofNat_byte (by omega)
  case bufsz => exact toNat_ofNat_lowHigh (by omega)
  case maxp => exact toNat_ofNat_byte (by omega)
  case status => exact toNat_statusReg s
  case fcode => exact toNat_fcodeReg s
  case fcmd0 => exact toNat_fcmdReg s 0
  case fcmd1 => exact toNat_fcmdReg s 1
  case fcmd2 => exact toNat_fcmdReg s 2
  case fcmd3 => exact toNat_fcmdReg s 3

/-- Settles O50, window by window. -/
theorem windowRegistersRead : Obligations.WindowRegistersRead := by
  unfold Obligations.WindowRegistersRead
  intro s
  refine ⟨fun sym hsym => regRead_stroke s hsym, rfl, fun p hp k hk => ?printer, fun f hf k hk => ?field⟩
  case printer => rw [regRead_printer s hp hk, printerReg_eq]
  case field => rw [regRead_field s hf hk, toNat_fieldReg]

/-- Settles O51: the addresses not named read 0, the two below 0x10 by the map's last system arm. -/
theorem unnamedRegistersReadZero : Obligations.UnnamedRegistersReadZero := by
  unfold Obligations.UnnamedRegistersReadZero
  rintro s addr (rfl | rfl | ⟨hlo, hhi⟩)
  · exact exec_rdreg_of_zero rfl
  · exact exec_rdreg_of_zero rfl
  · exact exec_rdreg_of_zero (regRead_unnamedWindow s hlo hhi)

end Sys2Proof.Machine
end

section
/-! SUPPORT. The illegal words (R85): which field values the decoder rejects, opcode by opcode, what accepting a rejected word
does in RUN, and the statement about them. -/

namespace Sys2Proof

/-- A row of R82 rejects a word exactly when its must-be-zero fields do not add up to 0. -/
theorem exists_spell_eq_illegal_iff (zeros : Nat) (i : Instr) :
    (∃ why, spell zeros i = .illegal why) ↔ zeros ≠ 0 := by
  by_cases h : zeros = 0 <;> simp [spell, h]

/-- R85 over the five fields of R81: the reserved opcodes, and the must-be-zero fields of each row that has some. -/
theorem exists_decodeFields_eq_illegal_iff {op : Nat} (hop : op < 16) (sel a b c : Nat) :
    (∃ why, decodeFields op sel a b c = .illegal why) ↔
      (op = 0xE ∨ op = 0xF ∨ (op = 0x0 ∧ sel + a + b + c ≠ 0) ∨ (op = 0x1 ∧ c ≠ 0) ∨ (op = 0x2 ∧ b + c ≠ 0) ∨
        (op = 0x4 ∧ a + b + c ≠ 0) ∨ (op = 0x7 ∧ a + b ≠ 0) ∨ (op = 0xC ∧ c ≠ 0) ∨ (op = 0xD ∧ sel + b + c ≠ 0)) := by
  unfold decodeFields
  split
  case h_15 =>
    have hreserved : op = 0xE ∨ op = 0xF := by
      simp only [imp_false] at *
      omega
    exact iff_of_true ⟨_, rfl⟩ (hreserved.imp_right .inl)
  all_goals
    rw [exists_spell_eq_illegal_iff]
    omega

namespace Machine

/-- Accepting an illegal word in RUN raises ERR_OPCODE with that word (R85, R205). -/
theorem accept_illegal_running {s : State} {cw : Word} {why : Illegal} (hrun : Running s)
    (hdec : decode cw = .illegal why) : accept cw s = .next (raiseFault .errOpcode cw s) := by
  simp [accept, hdec, illegalWord, hrun]

/-- Settles O4: the must-be-zero fields of each row are the masks of R85. -/
theorem illegalEncodings : Obligations.IllegalEncodings := by
  unfold Obligations.IllegalEncodings
  refine ⟨fun cw => ?masks, fun s cw why hlegal hrun hdec => ?fault, by decide, .reservedOpcode, by decide⟩
  case masks =>
    simp only [ne_eq, mask_all, mask_c, mask_bc, mask_abc, mask_ab, mask_sel_bc]
    exact exists_decodeFields_eq_illegal_iff (bits_lt cw 31 28) ..
  case fault => rw [step_presentWord hlegal, accept_illegal_running hrun hdec]

end Machine

end Sys2Proof
end

section
/-! SUPPORT. The frame of R209 over a presented word: the encoding check, the operand checks in their order, the effect; and
GLYPH's pseudocode (R118) from it. -/

namespace Sys2Proof

/-- A legal word is the word of the command it spells (R82, R84): every field the row reads stands back in its place. -/
theorem encode_of_decode {cw : Word} {i : Instr} (h : decode cw = .instr i) : encode i = cw := by
  rw [← packFields_bits cw]
  have ha := bits_lt cw 23 16
  have hb := bits_lt cw 15 8
  have hc := bits_lt cw 7 0
  have hvalue := field16_sext16 (bits cw 15 8 * 256 + bits cw 7 0) (by omega)
  unfold decode decodeFields at h
  split at h
  case h_15 => cases h
  all_goals
    obtain ⟨hzeros, rfl⟩ := Machine.spell_eq_instr h
    simp only [encode, hvalue]
    congr 1 <;> omega

end Sys2Proof

namespace Sys2Proof.Machine

/-- The first failing check decides between a fault and the completed command (R209). -/
theorem elim_firstFault_cons (failed : Bool) (code : FaultCode) (rest : List (Bool × FaultCode)) (done : State)
    (fault : FaultCode → State) : (firstFault ((failed, code) :: rest)).elim done fault =
      if failed then fault code else (firstFault rest).elim done fault := by
  rw [firstFault_cons, apply_ite (Option.elim · done fault)]
  rfl

/-- R118's and R156's checks, in order. -/
theorem elim_firstFault_symbolChecks (s : State) (p sym : Nat) (done : State) (fault : FaultCode → State) :
    (firstFault (symbolChecks s p sym)).elim done fault =
      if s.params.nprn ≤ p then fault .errSel
      else if (ctx s p).valid = false then fault .errUncfg
      else if 15 ≤ sym then fault .errSymbol
      else done := by
  simp only [symbolChecks, usablePrinter, printerExists, printerConfigured, symbolValid, List.cons_append,
    List.nil_append, elim_firstFault_cons, decide_eq_true_eq, Bool.not_eq_true']
  rfl

/-- Accepting a word of a row of R82 that is not RDREG's: the HALTED test, the encoding check, the row's checks in order, the
effect and the response (R85, R209). FCMD takes the word itself. -/
theorem accept_spell {cw : Word} {zeros : Nat} {i : Instr} {checks : List (Bool × FaultCode)}
    {effect : State → State × Byte} {s : State} (hdec : decode cw = spell zeros i)
    (hexec : exec i s = .next (command i checks effect s)) :
    accept cw s = .next (
      if s.fault = true then discard s
      else if zeros ≠ 0 then raiseFault .errOpcode cw s
      else (firstFault checks).elim (respond (effect s).1 codeOk (effect s).2) (raiseFault · cw s)) := by
  by_cases hz : zeros = 0
  · have hinstr : decode cw = .instr i := by rw [hdec, spell, if_pos hz]
    have haccept : accept cw s = exec i s := by rw [accept, hinstr]
    rw [haccept, hexec, command, encode_of_decode hinstr, if_neg (not_not.2 hz)]
    cases firstFault checks <;> rfl
  · have haccept : accept cw s = .next (illegalWord cw s) := by rw [accept, hdec, spell, if_neg hz]
    rw [haccept, illegalWord, if_pos hz]

/-- Settles O21: GLYPH's row of R82 in the frame of R209. -/
theorem glyphPseudocode : Obligations.GlyphPseudocode := by
  unfold Obligations.GlyphPseudocode
  intro s cw hlegal hop p sym
  have hexec : exec (.glyph p sym) s = .next (command (.glyph p sym) (symbolChecks s p sym)
      (fun t => (draw p sym t, BitVec.ofNat 8 (glyphWidth t p sym))) s) := rfl
  rw [step_presentWord hlegal, accept_spell (decode_of_opcode cw hop) hexec, elim_firstFault_symbolChecks]
  simp only [ne_eq, mask_ab]

end Sys2Proof.Machine
end

section
/-! SUPPORT. The line commands: the printer checks and the range check in the frame of R209, with the pseudocode of BCLR, LINEH,
LINEV and BRD (R137, R133, R136, R138) from them; and what a completed line does to every byte of every buffer (R131, R134). -/

namespace Sys2Proof.Machine

/-! ### The checks of the line commands, in order -/

/-- R209's steps 2 and 3, before the checks of the command's own. -/
theorem elim_firstFault_usablePrinter (s : State) (p : Nat) (rest : List (Bool × FaultCode)) (done : State)
    (fault : FaultCode → State) : (firstFault (usablePrinter s p ++ rest)).elim done fault =
      if s.params.nprn ≤ p then fault .errSel
      else if (ctx s p).valid = false then fault .errUncfg
      else (firstFault rest).elim done fault := by
  simp only [usablePrinter, printerExists, printerConfigured, List.cons_append, List.nil_append, elim_firstFault_cons,
    decide_eq_true_eq, Bool.not_eq_true']

theorem elim_firstFault_inRange (outside : Bool) (done : State) (fault : FaultCode → State) :
    (firstFault [inRange outside]).elim done fault = if outside then fault .errRange else done :=
  elim_firstFault_cons ..

/-! ### The pseudocode of each command -/

/-- Settles O18: BCLR's row of R82 in the frame of R209, with the printer checks alone. -/
theorem bclrPseudocode : Obligations.BclrPseudocode := by
  unfold Obligations.BclrPseudocode
  intro s cw hlegal hop p
  have hexec : exec (.bclr p) s =
      .next (command (.bclr p) (usablePrinter s p ++ []) (fun t => (memZero t p, 0#8)) s) := rfl
  rw [step_presentWord hlegal, accept_spell (decode_of_opcode cw hop) hexec, elim_firstFault_usablePrinter]
  simp only [ne_eq, mask_abc]
  rfl

/-- Settles O19: LINEH's row of R82, which has no must-be-zero field, in the frame of R209. -/
theorem linehPseudocode : Obligations.LinehPseudocode := by
  unfold Obligations.LinehPseudocode
  intro s cw hlegal hop p x y len
  have hexec : exec (.lineh p x y len) s = .next (command (.lineh p x y len) (linehChecks s p x y len)
      (fun t => (lineH p x y len t, 0#8)) s) := rfl
  rw [step_presentWord hlegal, accept_spell (decode_of_opcode cw hop) hexec, linehChecks, elim_firstFault_usablePrinter,
    elim_firstFault_inRange]
  simp only [ne_eq, not_true_eq_false, if_false, Bool.or_eq_true, decide_eq_true_eq, or_assoc]

/-- Settles O20: LINEV's row of R82, which has no must-be-zero field, in the frame of R209. -/
theorem linevPseudocode : Obligations.LinevPseudocode := by
  unfold Obligations.LinevPseudocode
  intro s cw hlegal hop p x y len
  have hexec : exec (.linev p x y len) s = .next (command (.linev p x y len) (linevChecks s p x y len)
      (fun t => (lineV p x y len t, 0#8)) s) := rfl
  rw [step_presentWord hlegal, accept_spell (decode_of_opcode cw hop) hexec, linevChecks, elim_firstFault_usablePrinter,
    elim_firstFault_inRange]
  simp only [ne_eq, not_true_eq_false, if_false, Bool.or_eq_true, decide_eq_true_eq, or_assoc]

/-- Settles O26: BRD's row of R82 in the frame of R209; the effect is the state itself. -/
theorem brdPseudocode : Obligations.BrdPseudocode := by
  unfold Obligations.BrdPseudocode
  intro s cw hlegal hop p x q
  have hexec : exec (.brd p x q) s = .next (command (.brd p x q) (brdChecks s p x q)
      (fun t => (t, memRead t p (q * widthOf t p + x))) s) := rfl
  rw [step_presentWord hlegal, accept_spell (decode_of_opcode cw hop) hexec, brdChecks, elim_firstFault_usablePrinter,
    elim_firstFault_inRange]
  simp only [ne_eq, mask_c, Bool.or_eq_true, decide_eq_true_eq]

/-! ### What a completed line does -/

/-- A drawing command whose checks pass answers 0x0000 from the state its drawing leaves, with every control register kept. -/
theorem exec_completes_onlyBuffers {i : Instr} {checks : List (Bool × FaultCode)} {drawing : State → State} {s : State}
    (hrun : Running s) (hexec : exec i s = .next (command i checks (fun t => (drawing t, 0#8)) s))
    (hchecks : firstFault checks = none) (hbuf : OnlyBuffers s (drawing s)) :
    exec i s = .next (respond (drawing s) codeOk 0#8) ∧ SameControl s (respond (drawing s) codeOk 0#8) ∧
      (respond (drawing s) codeOk 0#8).trace = s.trace ++ [.response 0x0000#16] := by
  refine ⟨exec_completes hrun hexec hchecks, hbuf.sameControl.trans (sameControl_respond ..), ?_⟩
  rw [respond_trace, hbuf.trace]
  rfl

@[simp] theorem pix_respond (s : State) (code : BitVec 4) (v : Byte) (p x r : Nat) :
    pix (respond s code v) p x r = pix s p x r := rfl

theorem firstFault_linehChecks {s : State} {p x y len : Nat} (hp : UsablePrinter s p) (hx : x < widthOf s p)
    (hy : y < 8 * pagesOf s p) (hlen : x + len ≤ widthOf s p) : firstFault (linehChecks s p x y len) = none := by
  rw [linehChecks, firstFault_usablePrinter hp]
  simp [inRange, firstFault, Nat.not_le.2 hx, Nat.not_le.2 hy, Nat.not_lt.2 hlen]

theorem firstFault_linevChecks {s : State} {p x y len : Nat} (hp : UsablePrinter s p) (hx : x < widthOf s p)
    (hy : y < 8 * pagesOf s p) (hlen : y + len ≤ 8 * pagesOf s p) : firstFault (linevChecks s p x y len) = none := by
  rw [linevChecks, firstFault_usablePrinter hp]
  simp [inRange, firstFault, Nat.not_le.2 hx, Nat.not_le.2 hy, Nat.not_lt.2 hlen]

/-- LineH ORs its one mask into the consecutive bytes of its run (R131, R132). -/
theorem cover_lineHAccesses {w x y len k : Nat} (hk : k < len) :
    cover (lineHAccesses w x y len) (y / 8 * w + x + k) = BitVec.ofNat 8 (2 ^ (y % 8)) := by
  refine BitVec.eq_of_getLsbD_eq fun j _ => ?_
  rw [Bool.eq_iff_iff, getLsbD_cover, lineHAccesses, ← Nat.one_shiftLeft]
  simp only [List.mem_map, List.mem_range, exists_exists_and_eq_and, Nat.add_left_cancel_iff]
  exact ⟨fun ⟨_, _, _, hbit⟩ => hbit, fun hbit => ⟨k, hk, rfl, hbit⟩⟩

/-- LineH ORs nothing outside the bytes of its run (R131). -/
theorem cover_lineHAccesses_outside {w x y len i : Nat} (hi : i < y / 8 * w + x ∨ y / 8 * w + x + len ≤ i) :
    cover (lineHAccesses w x y len) i = 0#8 := by
  refine cover_eq_zero fun e he => ?_
  obtain ⟨k, hk, rfl⟩ := List.mem_map.mp he
  have := List.mem_range.mp hk
  show y / 8 * w + x + k ≠ i
  omega

/-- The accesses of a list leave alone every other context and every byte their cover leaves alone. -/
theorem memRead_orAll_frame {p q i : Nat} {l : List (Nat × Byte)} {s : State} (hp : p < s.buf.length)
    (h : q ≠ p ∨ cover l i = 0#8) : memRead (orAll p l s) q i = memRead s q i := by
  rw [memRead_orAll l hp]
  split
  case isFalse => rfl
  case isTrue heq =>
    have hzero : cover l i = 0#8 := h.resolve_left (not_not.2 heq)
    rw [hzero, BitVec.or_zero, heq]

/-- Settles O33: LineH is the list of its accesses, whose cover is the run's mask on the run and 0 elsewhere. -/
theorem linehCompletes : Obligations.LinehCompletes := by
  unfold Obligations.LinehCompletes
  intro s p x y len hinv hrun hp hx hy hlen
  have hbuf : p < s.buf.length := hinv.buf_lt hp
  obtain ⟨hexec, hcontrol, htrace⟩ := exec_completes_onlyBuffers (i := .lineh p x y len) hrun rfl
    (firstFault_linehChecks hp hx hy hlen) (onlyBuffers_lineH p x y len s)
  refine ⟨_, hexec, hcontrol, htrace, fun cx r hcx _ => ?pixels, fun k hk => ?run, fun q i hi => ?frame⟩
  case pixels => simp [pix_lineH hbuf hlen hcx]
  case run => rw [memRead_respond, lineH_eq, memRead_orAll _ hbuf, if_pos rfl, cover_lineHAccesses hk]
  case frame =>
    rw [memRead_respond, lineH_eq]
    exact memRead_orAll_frame hbuf (hi.imp_right cover_lineHAccesses_outside)

/-- Settles O34: LineV's cover is its run of pixels, and its accesses stay below W*P. -/
theorem linevCompletes : Obligations.LinevCompletes := by
  unfold Obligations.LinevCompletes
  intro s p x y len hinv hrun hp hx hy hlen
  have hbuf : p < s.buf.length := hinv.buf_lt hp
  obtain ⟨hexec, hcontrol, htrace⟩ := exec_completes_onlyBuffers (i := .linev p x y len) hrun rfl
    (firstFault_linevChecks hp hx hy hlen) (onlyBuffers_lineV p x y len s)
  refine ⟨_, hexec, hcontrol, htrace, fun cx r hcx _ => ?pixels, fun q i hi => ?frame⟩
  case pixels => simp [pix_lineV hbuf hx hcx]
  case frame =>
    rw [memRead_respond, lineV_eq]
    refine memRead_orAll_frame hbuf (hi.imp_right fun habove => cover_eq_zero fun e he => ?_)
    exact Nat.ne_of_lt (Nat.lt_of_lt_of_le (mem_lineVAccesses_lt hx hy hlen e he) habove)

end Sys2Proof.Machine
end

section
/-! SUPPORT. The printer commands: PCFG, PUSH, PRINT and PCLEAR's pseudocode (R151, R154, R156, R158) in the frame of R209, and
the completed PUSH and PCLEAR, which send events and change no state (R153, R157). -/

namespace Sys2Proof.Machine

/-! ### The checks of the printer commands, in order -/

/-- R151's checks. -/
theorem elim_firstFault_pcfgChecks (s : State) (p w pages : Nat) (done : State) (fault : FaultCode → State) :
    (firstFault (pcfgChecks s p w pages)).elim done fault =
      if s.params.nprn ≤ p then fault .errSel
      else if (ctx s p).valid = true then fault .errRecfg
      else if w < 2 ∨ pages < 1 ∨ s.params.maxp < pages ∨ s.params.bufsz < w * pages then fault .errAlloc
      else done := by
  simp only [pcfgChecks, printerExists, elim_firstFault_cons, Bool.or_eq_true, decide_eq_true_eq, or_assoc]
  rfl

/-- R154's checks. -/
theorem elim_firstFault_pushChecks (s : State) (p len : Nat) (done : State) (fault : FaultCode → State) :
    (firstFault (pushChecks s p len)).elim done fault =
      if s.params.nprn ≤ p then fault .errSel
      else if (ctx s p).valid = false then fault .errUncfg
      else if widthOf s p < len then fault .errRange
      else done := by
  rw [pushChecks, elim_firstFault_usablePrinter, elim_firstFault_inRange]
  simp only [decide_eq_true_eq]

/-- The checks of a command that needs a usable printer and nothing else (R158). -/
theorem elim_firstFault_usablePrinter_nil (s : State) (p : Nat) (done : State) (fault : FaultCode → State) :
    (firstFault (usablePrinter s p)).elim done fault =
      if s.params.nprn ≤ p then fault .errSel
      else if (ctx s p).valid = false then fault .errUncfg
      else done :=
  elim_firstFault_usablePrinter s p [] done fault

/-! ### The pseudocode of each command -/

/-- A presented word whose row of R82 has no must-be-zero field: no word of its opcode is illegal, so after the HALTED test
come the row's own checks (R85, R209). -/
theorem step_presentWord_spell_zero {cw : Word} {i : Instr} {checks : List (Bool × FaultCode)}
    {effect : State → State × Byte} {s : State} (hlegal : s.params.Legal) (hdec : decode cw = spell 0 i)
    (hexec : exec i s = .next (command i checks effect s)) :
    step (presentWord cw s) = .next (
      if s.fault = true then discard s
      else (firstFault checks).elim (respond (effect s).1 codeOk (effect s).2) (raiseFault · cw s)) := by
  rw [step_presentWord hlegal, accept_spell hdec hexec, if_neg (not_not.2 (rfl : 0 = 0))]

/-- Settles O15: PCFG's row of R82 in the frame of R209. -/
theorem pcfgPseudocode : Obligations.PcfgPseudocode := by
  unfold Obligations.PcfgPseudocode
  intro s cw hlegal hop p w pages
  have hexec : exec (.pcfg p w pages) s = .next (command (.pcfg p w pages) (pcfgChecks s p w pages)
      (fun t => (setCtx t p ⟨true, BitVec.ofNat 8 w, BitVec.ofNat 8 pages⟩, 0#8)) s) := rfl
  rw [step_presentWord hlegal, accept_spell (decode_of_opcode cw hop) hexec, elim_firstFault_pcfgChecks]
  simp only [ne_eq, mask_c]

/-- Settles O22: PUSH's row of R82, all fields free, in the frame of R209. -/
theorem pushPseudocode : Obligations.PushPseudocode := by
  unfold Obligations.PushPseudocode
  intro s cw hlegal hop p len
  have hexec : exec (.push p (bits cw 23 16) (bits cw 15 8) len) s =
      .next (command (.push p (bits cw 23 16) (bits cw 15 8) len) (pushChecks s p len)
        (fun t => (push p (bits cw 23 16) (bits cw 15 8) len t, 0#8)) s) := rfl
  rw [step_presentWord_spell_zero hlegal (decode_of_opcode cw hop) hexec, elim_firstFault_pushChecks]

/-- Settles O23: PRINT's row of R82, all fields free, in the frame of R209; its checks are GLYPH's. -/
theorem printPseudocode : Obligations.PrintPseudocode := by
  unfold Obligations.PrintPseudocode
  intro s cw hlegal hop p sym
  have hexec : exec (.print p (bits cw 23 16) (bits cw 15 8) sym) s =
      .next (command (.print p (bits cw 23 16) (bits cw 15 8) sym) (symbolChecks s p sym)
        (fun t => (print p sym (bits cw 23 16) (bits cw 15 8) t, BitVec.ofNat 8 (glyphWidth t p sym))) s) := rfl
  rw [step_presentWord_spell_zero hlegal (decode_of_opcode cw hop) hexec, elim_firstFault_symbolChecks]

/-- Settles O24: PCLEAR's row of R82, all fields free, in the frame of R209, with the printer checks alone. -/
theorem pclearPseudocode : Obligations.PclearPseudocode := by
  unfold Obligations.PclearPseudocode
  intro s cw hlegal hop p
  have hexec : exec (.pclear p (bits cw 23 16) (bits cw 15 8) (bits cw 7 0)) s =
      .next (command (.pclear p (bits cw 23 16) (bits cw 15 8) (bits cw 7 0)) (usablePrinter s p)
        (fun t => (clear p (bits cw 23 16) (bits cw 15 8) (bits cw 7 0) t, 0#8)) s) := rfl
  rw [step_presentWord_spell_zero hlegal (decode_of_opcode cw hop) hexec, elim_firstFault_usablePrinter_nil]

/-! ### What a completed PUSH or PCLEAR does -/

/-- A command whose checks pass and whose effect only sends events leaves the old state, with those events and then the
response 0x0000 sent (R64, R209). -/
theorem exec_completes_emitting {i : Instr} {checks : List (Bool × FaultCode)} {sending : State → List Event} {s : State}
    (hrun : Running s) (hexec : exec i s = .next (command i checks (fun t => (emitAll t (sending t), 0#8)) s))
    (hchecks : firstFault checks = none) :
    exec i s = .next { s with trace := s.trace ++ (sending s).map Output.event ++ [.response 0x0000#16] } := by
  rw [exec_completes hrun hexec hchecks, respond_ok_zero]
  rfl

theorem firstFault_pushChecks {s : State} {p len : Nat} (hp : UsablePrinter s p) (hlen : len ≤ widthOf s p) :
    firstFault (pushChecks s p len) = none := by
  rw [pushChecks, firstFault_usablePrinter hp]
  simp [inRange, firstFault, Nat.not_lt.2 hlen]

/-- Settles O41: the events of Push, each the run of its page. -/
theorem pushCompletes : Obligations.PushCompletes := by
  unfold Obligations.PushCompletes
  intro s p col page len hrun hp hlen
  have hexec : exec (.push p col page len) s = .next (command (.push p col page len) (pushChecks s p len)
      (fun t => (emitAll t (pushEvents t p col page len), 0#8)) s) := rfl
  rw [exec_completes_emitting hrun hexec (firstFault_pushChecks hp hlen), pushEvents, List.map_map]
  rfl

/-- Settles O43: the events of Clear; the effect reads the printer's page count and no buffer. -/
theorem pclearCompletes : Obligations.PclearCompletes := by
  unfold Obligations.PclearCompletes
  intro s p col page width hrun hp
  have hexec : exec (.pclear p col page width) s = .next (command (.pclear p col page width) (usablePrinter s p)
      (fun t => (emitAll t (clearEvents (pagesOf t p) col page width), 0#8)) s) := rfl
  rw [exec_completes_emitting hrun hexec (firstFault_usablePrinter_nil hp), clearEvents, List.map_map]
  rfl

end Sys2Proof.Machine
end

section
/-! SUPPORT. The fields of a command word that two operands share (R82, R83): the two selectors of FCFGA's `a`, and SETNUM's
16-bit value across `b` and `c`. -/

namespace Sys2Proof

theorem bits_a_div (w : Word) : bits w 23 16 / 16 = bits w 23 20 := by
  unfold bits; omega

theorem bits_a_mod (w : Word) : bits w 23 16 % 16 = bits w 19 16 := by
  unfold bits; omega

theorem bits_bc (w : Word) : bits w 15 8 * 256 + bits w 7 0 = bits w 15 0 := by
  unfold bits; omega

/-- `sext_16` is the two's-complement reading of a 16-bit field (R13). -/
theorem sext16_eq_toInt {n : Nat} (h : n < 65536) : sext16 n = (BitVec.ofNat 16 n).toInt := by
  rw [BitVec.toInt_eq_toNat_cond, BitVec.toNat_ofNat, Nat.mod_eq_of_lt h, sext16]
  split <;> split <;> omega

end Sys2Proof
end

section
/-! SUPPORT. The number-field commands: the pseudocode of FCFGA, FCFGB and SETNUM (R171, R172, R179) in the frame of R209, and
what Decompose gives (R173). -/

namespace Sys2Proof.Machine

/-! ### The checks of the field commands, in order -/

/-- R171's checks: a test over both printers is one after the other, each with the same fault. -/
theorem elim_firstFault_fcfgaChecks (s : State) (f dp lp : Nat) (done : State) (fault : FaultCode → State) :
    (firstFault (fcfgaChecks s f dp lp)).elim done fault =
      if s.params.nfld ≤ f then fault .errSel
      else if (desc s f).va = true then fault .errRecfg
      else if s.params.nprn ≤ dp ∨ s.params.nprn ≤ lp then fault .errSel
      else if (ctx s dp).valid = false ∨ (ctx s lp).valid = false then fault .errUncfg
      else done := by
  simp only [fcfgaChecks, fieldExists, printerExists, printerConfigured, elim_firstFault_cons, decide_eq_true_eq,
    Bool.not_eq_true', ite_or]
  rfl

/-- R172's checks. -/
theorem elim_firstFault_fcfgbChecks (s : State) (f : Nat) (done : State) (fault : FaultCode → State) :
    (firstFault (fcfgbChecks s f)).elim done fault =
      if s.params.nfld ≤ f then fault .errSel
      else if (desc s f).vb = true then fault .errRecfg
      else done := by
  simp only [fcfgbChecks, fieldExists, elim_firstFault_cons, decide_eq_true_eq]
  rfl

/-- R179's checks. -/
theorem elim_firstFault_setnumChecks (s : State) (f lbl : Nat) (done : State) (fault : FaultCode → State) :
    (firstFault (setnumChecks s f lbl)).elim done fault =
      if s.params.nfld ≤ f then fault .errSel
      else if (desc s f).va = false ∨ (desc s f).vb = false then fault .errUncfg
      else if 15 ≤ lbl then fault .errSymbol
      else if (desc s f).page.toNat + pagesOf s (desc s f).dp.toNat < pagesOf s (desc s f).lp.toNat then fault .errLayout
      else done := by
  simp only [setnumChecks, fieldExists, symbolValid, elim_firstFault_cons, decide_eq_true_eq, Bool.or_eq_true,
    Bool.not_eq_true']
  rfl

/-! ### The pseudocode of each command -/

/-- Settles O16: FCFGA's row of R82, its `a` read as two selectors, in the frame of R209. -/
theorem fcfgaPseudocode : Obligations.FcfgaPseudocode := by
  unfold Obligations.FcfgaPseudocode
  intro s cw hlegal hop f dp lp
  have hdec : decode cw = spell (bits cw 15 8 + bits cw 7 0) (.fcfga f dp lp) := by
    rw [decode_of_opcode cw hop, decodeFields, bits_a_div, bits_a_mod]
  have hexec : exec (.fcfga f dp lp) s = .next (command (.fcfga f dp lp) (fcfgaChecks s f dp lp)
      (fun t => (setDesc t f { desc t f with dp := BitVec.ofNat 4 dp, lp := BitVec.ofNat 4 lp, va := true }, 0#8)) s) := rfl
  rw [step_presentWord hlegal, accept_spell hdec hexec, elim_firstFault_fcfgaChecks]
  simp only [ne_eq, mask_bc]

/-- Settles O17: FCFGB's row of R82, all fields free, in the frame of R209. -/
theorem fcfgbPseudocode : Obligations.FcfgbPseudocode := by
  unfold Obligations.FcfgbPseudocode
  intro s cw hlegal hop f
  have hexec : exec (.fcfgb f (bits cw 23 16) (bits cw 15 8) (bits cw 7 0)) s =
      .next (command (.fcfgb f (bits cw 23 16) (bits cw 15 8) (bits cw 7 0)) (fcfgbChecks s f)
        (fun t => (setDesc t f { desc t f with
          x := BitVec.ofNat 8 (bits cw 23 16), page := BitVec.ofNat 8 (bits cw 15 8), maxw := BitVec.ofNat 8 (bits cw 7 0),
          vb := true }, 0#8)) s) := rfl
  rw [step_presentWord_spell_zero hlegal (decode_of_opcode cw hop) hexec, elim_firstFault_fcfgbChecks]

/-- Settles O25: SETNUM's row of R82, `b` and `c` read as one 16-bit value, in the frame of R209. -/
theorem setnumPseudocode : Obligations.SetnumPseudocode := by
  unfold Obligations.SetnumPseudocode
  intro s cw hlegal hop f lbl d
  have hdec : decode cw = spell 0 (.setnum f lbl (BitVec.ofNat 16 (bits cw 15 0)).toInt) := by
    rw [decode_of_opcode cw hop, decodeFields, bits_bc, sext16_eq_toInt (bits_lt cw 15 0)]
  have hexec : exec (.setnum f lbl (BitVec.ofNat 16 (bits cw 15 0)).toInt) s =
      .next (command (.setnum f lbl (BitVec.ofNat 16 (bits cw 15 0)).toInt) (setnumChecks s f lbl)
        (fun t => (setNumber f (BitVec.ofNat 16 (bits cw 15 0)).toInt lbl t, 0#8)) s) := rfl
  rw [step_presentWord_spell_zero hlegal hdec hexec, elim_firstFault_setnumChecks]

/-! ### Decompose -/

/-- Decompose is the sign, then the digits most significant first (R173). -/
theorem decompose_eq (v : Int) :
    decompose v = (if v < 0 then [10] else []) ++ (digitsUp (v.natAbs + 1) v.natAbs).reverse := by
  rw [decompose, List.reverse_append]
  split <;> rfl

/-- Read most significant first, a list of digits spells the number `valueUp` gives it. -/
theorem foldl_reverse_eq_valueUp (ds : List Nat) : ds.reverse.foldl (fun n d => 10 * n + d) 0 = valueUp ds := by
  rw [List.foldl_reverse]
  induction ds with
  | nil => rfl
  | cons d rest ih => rw [List.foldr_cons, ih, valueUp, Nat.add_comm]

/-- The body of the digit loop runs at least once (R173). -/
theorem one_le_length_digitsUp_succ (fuel m : Nat) : 1 ≤ (digitsUp (fuel + 1) m).length := by
  rw [digitsUp, List.length_cons]
  exact Nat.le_add_left ..

/-- The most significant digit of a positive number is not 0. -/
theorem getLast?_digitsUp_ne_zero {fuel m : Nat} (hfuel : m < fuel) (hm : m ≠ 0) :
    (digitsUp fuel m).getLast? ≠ some 0 := by
  induction fuel generalizing m with
  | zero => omega
  | succ fuel ih =>
    rw [digitsUp]
    by_cases hlast : m / 10 = 0
    · have hdigit : m % 10 ≠ 0 := by omega
      simpa [hlast] using hdigit
    · have hvalue : valueUp (digitsUp fuel (m / 10)) = m / 10 := valueUp_digitsUp fuel _ (by omega)
      have hrest : digitsUp fuel (m / 10) ≠ [] := fun hnil => hlast (by rw [← hvalue, hnil]; rfl)
      rw [if_neg hlast, List.getLast?_cons_of_ne_nil hrest]
      exact ih (by omega) hlast

/-- Only the one digit of 0 is a leading 0 (R173). -/
theorem head?_reverse_digitsUp_ne_zero (m : Nat) (hlen : 2 ≤ (digitsUp (m + 1) m).reverse.length) :
    (digitsUp (m + 1) m).reverse.head? ≠ some 0 := by
  rw [List.head?_reverse]
  refine getLast?_digitsUp_ne_zero (Nat.lt_succ_self m) ?_
  rintro rfl
  exact absurd hlen (by decide)

/-- Settles O47: the digits are those of |v|, which is below 10^5. -/
theorem decomposeGivesTheDecimalDigits : Obligations.DecomposeGivesTheDecimalDigits := by
  unfold Obligations.DecomposeGivesTheDecimalDigits
  rintro v ⟨hlow, hhigh⟩
  have hbound : v.natAbs < 10 ^ (4 + 1) := by omega
  refine ⟨_, decompose_eq v, fun d hd => ?digit, ?value, ?nonempty, ?short, head?_reverse_digitsUp_ne_zero _⟩
  case digit => exact digitsUp_lt _ _ d (List.mem_reverse.1 hd)
  case value => rw [foldl_reverse_eq_valueUp, valueUp_digitsUp _ _ (Nat.lt_succ_self _)]
  case nonempty => rw [List.length_reverse]; exact one_le_length_digitsUp_succ ..
  case short => rw [List.length_reverse]; exact length_digitsUp_le _ _ 4 hbound

end Sys2Proof.Machine
end

section
/-! SUPPORT. The system commands: NOP's pseudocode (R190) in the frame of R209, and RDREG's (R191), which makes the encoding
check before the HALTED test. -/

namespace Sys2Proof.Machine

/-- Accepting a word of a row of R82, any command: the encoding check decides between the illegal word and the command's own
execution (R84, R85). RDREG's order of R191 needs this form, since its execution makes no HALTED test. -/
theorem accept_spell_eq_ite {cw : Word} {zeros : Nat} {i : Instr} {s : State} (hdec : decode cw = spell zeros i) :
    accept cw s = if zeros ≠ 0 then .next (illegalWord cw s) else exec i s := by
  rw [accept, hdec, spell]
  by_cases hz : zeros = 0
  · rw [if_pos hz, if_neg (not_not.2 hz)]
  · rw [if_neg hz, if_pos hz]

/-- Settles O14: NOP's row of R82, every field of it 0, in the frame of R209 with no checks. -/
theorem nopPseudocode : Obligations.NopPseudocode := by
  unfold Obligations.NopPseudocode
  intro s cw hlegal hop
  have hexec : exec .nop s = .next (command .nop [] (fun t => (t, 0#8)) s) := rfl
  rw [step_presentWord hlegal, accept_spell (decode_of_opcode cw hop) hexec]
  simp only [ne_eq, mask_all]
  rfl

/-- Settles O27: RDREG's row of R82; the HALTED test stands in the illegal word alone, after the encoding check. -/
theorem rdregPseudocode : Obligations.RdregPseudocode := by
  unfold Obligations.RdregPseudocode
  intro s cw hlegal hop
  have hexec : exec (.rdreg (bits cw 23 16)) s = .next (respond s codeOk (regRead s (bits cw 23 16))) := rfl
  rw [step_presentWord hlegal, accept_spell_eq_ite (decode_of_opcode cw hop), hexec, ← apply_ite Host.Outcome.next]
  simp only [ne_eq, mask_sel_bc, illegalWord]

end Sys2Proof.Machine
end

section
/-! SUPPORT. Fault entry and the HALTED state (R203, R204): what a word accepted in HALTED can do, what a word that faults in RUN
does, and the two statements about them. -/

namespace Sys2Proof.Machine

/-! ### HALTED (R204) -/

section
variable {s : State} {cw : Word}

/-- In HALTED every word but a well-formed RDREG is discarded, a legal one and an illegal one alike. -/
theorem accept_halted (hfault : s.fault = true) (hcw : ∀ addr, decode cw ≠ .instr (.rdreg addr)) :
    accept cw s = .next (discard s) := by
  cases hdec : decode cw with
  | instr i =>
    rw [accept, hdec]
    exact exec_halted hfault fun addr hi => hcw addr (by rw [hdec, hi])
  | illegal why =>
    rw [accept, hdec, illegalWord, if_pos hfault]

/-- A well-formed RDREG answers its register, in RUN and in HALTED (R191, R204). -/
theorem accept_rdreg {addr : Nat} (hdec : decode cw = .instr (.rdreg addr)) :
    accept cw s = .next (respond s codeOk (regRead s addr)) := by
  rw [accept, hdec]
  rfl

/-- In HALTED every word is answered, and nothing but the response changes the state. -/
theorem exists_accept_eq_respond_of_halted (cw : Word) (hfault : s.fault = true) :
    ∃ code value, accept cw s = .next (respond s code value) := by
  by_cases hrdreg : ∃ addr, decode cw = .instr (.rdreg addr)
  · obtain ⟨addr, hdec⟩ := hrdreg
    exact ⟨_, _, accept_rdreg hdec⟩
  · exact ⟨_, _, accept_halted hfault (not_exists.1 hrdreg)⟩

end

/-- Settles O10: the first two clauses are the two kinds of word; in the third a step is idle or one word, which HALTED answers
and nothing more. -/
theorem haltedDiscardsAllButRdreg : Obligations.HaltedDiscardsAllButRdreg := by
  unfold Obligations.HaltedDiscardsAllButRdreg
  refine ⟨fun s cw hlegal hfault hcw => ?discarded, fun s cw addr hlegal _ hdec => ?read,
    fun s t hfault hreset hstep => ?kept⟩
  case discarded =>
    rw [step_presentWord hlegal, accept_halted hfault hcw]
    rfl
  case read => rw [step_presentWord hlegal, accept_rdreg hdec, respond_ok]
  case kept =>
    obtain ⟨-, ⟨-, rfl⟩ | ⟨rest, hinputs, -⟩ | ⟨cw, rest, -, haccept⟩⟩ := step_cases hstep
    · exact ⟨hfault, rfl, rfl, rfl, rfl, rfl⟩
    · exact absurd (by rw [hinputs]; rfl) hreset
    · have hfault' : ({ s with inputs := rest } : State).fault = true := hfault
      obtain ⟨code, value, hrespond⟩ := exists_accept_eq_respond_of_halted cw hfault'
      cases hrespond.symm.trans haccept
      exact ⟨hfault, rfl, rfl, rfl, rfl, rfl⟩

/-! ### Fault entry (R203) -/

/-- The whole state after fault entry, its response word `code << 12` (R203). -/
theorem raiseFault_eq (code : FaultCode) (cw : Word) (s : State) :
    raiseFault code cw s = { s with
      fcode := code.number, fcmd := cw, fault := true,
      trace := s.trace ++ [.response (BitVec.ofNat 16 (code.number.toNat * 4096))] } := by
  rw [← responseWord_fault]
  rfl

/-- In RUN a command ends with the fault flag set only by fault entry: a completed one leaves the flag as its effect does. -/
theorem command_eq_raiseFault {i : Instr} {checks : List (Bool × FaultCode)} {effect : State → State × Byte} {s : State}
    (hrun : Running s) (heffect : (effect s).1.fault = s.fault) (hfault : (command i checks effect s).fault = true) :
    ∃ code, command i checks effect s = raiseFault code (encode i) s := by
  cases hchecks : firstFault checks with
  | some code => exact ⟨code, command_faults hrun hchecks⟩
  | none =>
    rw [command_completes hrun hchecks, respond_fault, heffect, hrun] at hfault
    cases hfault

/-- A word accepted in RUN that leaves the fault flag set did fault entry with that very word and nothing else, whether its
encoding or one of its command's checks failed. -/
theorem eq_raiseFault_of_accept {s t : State} {cw : Word} (hrun : Running s) (haccept : accept cw s = .next t)
    (hfault : t.fault = true) : ∃ code, t = raiseFault code cw s := by
  cases hdec : decode cw with
  | illegal why =>
    rw [accept_illegal_running hrun hdec] at haccept
    cases haccept
    exact ⟨.errOpcode, rfl⟩
  | instr i =>
    have hexec : exec i s = .next t := by rwa [accept, hdec] at haccept
    obtain ⟨addr, rfl⟩ | ⟨checks, effect, hcommand, heffect, -⟩ := exec_emitsOnly i s
    · cases hexec
      exact absurd hfault (Bool.eq_false_iff.1 hrun)
    · cases hcommand.symm.trans hexec
      rw [← encode_of_decode hdec]
      exact command_eq_raiseFault hrun heffect hfault

/-- Settles O11: the faulting word did fault entry and nothing else; the output is the flag it sets. -/
theorem faultEntryIsPrecise : Obligations.FaultEntryIsPrecise := by
  unfold Obligations.FaultEntryIsPrecise
  intro s t cw hlegal hrun hstep hfault
  rw [step_presentWord hlegal] at hstep
  obtain ⟨code, rfl⟩ := eq_raiseFault_of_accept hrun hstep hfault
  exact ⟨code, hfault, raiseFault_eq code cw s⟩

end Sys2Proof.Machine
end

section
/-! SUPPORT. The encoding is a bijection between well-formed commands and legal words (R81 to R84), and the rows of the opcode
table part the legal words (R92). -/

namespace Sys2Proof

/-! ### Decode after encode -/

/-- Reading back the word of a well-formed command gives the command (R81 to R83): each operand stands whole in its field. -/
theorem decode_encode {i : Instr} (h : i.WellFormed) : decode (encode i) = .instr i := by
  cases i with
  | nop => rfl
  | pcfg p w pages =>
    obtain ⟨hp, hw, hpages⟩ := h
    exact decode_packFields (by decide) hp hw hpages (by decide)
  | fcfga f dp lp =>
    obtain ⟨hf, hdp, hlp⟩ := h
    have hdiv : (dp * 16 + lp) / 16 = dp := by omega
    have hmod : (dp * 16 + lp) % 16 = lp := by omega
    rw [encode, decode_packFields (by decide) hf (by omega) (by decide) (by decide), decodeFields, hdiv, hmod]
    rfl
  | fcfgb f x page maxw =>
    obtain ⟨hf, hx, hpage, hmaxw⟩ := h
    exact decode_packFields (by decide) hf hx hpage hmaxw
  | bclr p => exact decode_packFields (by decide) h (by decide) (by decide) (by decide)
  | lineh p x y len =>
    obtain ⟨hp, hx, hy, hlen⟩ := h
    exact decode_packFields (by decide) hp hx hy hlen
  | linev p x y len =>
    obtain ⟨hp, hx, hy, hlen⟩ := h
    exact decode_packFields (by decide) hp hx hy hlen
  | glyph p sym =>
    obtain ⟨hp, hsym⟩ := h
    exact decode_packFields (by decide) hp (by decide) (by decide) hsym
  | push p col page len =>
    obtain ⟨hp, hcol, hpage, hlen⟩ := h
    exact decode_packFields (by decide) hp hcol hpage hlen
  | print p col page sym =>
    obtain ⟨hp, hcol, hpage, hsym⟩ := h
    exact decode_packFields (by decide) hp hcol hpage hsym
  | pclear p col page width =>
    obtain ⟨hp, hcol, hpage, hwidth⟩ := h
    exact decode_packFields (by decide) hp hcol hpage hwidth
  | setnum f lbl value =>
    obtain ⟨hf, hlbl, hvalue⟩ := h
    have hfield := field16_lt value
    have hsplit : field16 value / 256 * 256 + field16 value % 256 = field16 value := Nat.div_add_mod' ..
    rw [encode, decode_packFields (by decide) hf hlbl (by omega) (by omega), decodeFields, hsplit,
      sext16_field16 value hvalue]
    rfl
  | brd p x page =>
    obtain ⟨hp, hx, hpage⟩ := h
    exact decode_packFields (by decide) hp hx hpage (by decide)
  | rdreg addr => exact decode_packFields (by decide) (by decide) h (by decide) (by decide)

/-- The operands of a legal word fit their fields (R81): they are read from fields of that size. -/
theorem wellFormed_of_decode {cw : Word} {i : Instr} (h : decode cw = .instr i) : i.WellFormed := by
  have hsel : bits cw 27 24 < 16 := bits_lt cw 27 24
  have ha : bits cw 23 16 < 256 := bits_lt cw 23 16
  have hb : bits cw 15 8 < 256 := bits_lt cw 15 8
  have hc : bits cw 7 0 < 256 := bits_lt cw 7 0
  have hvalue := fitsValue_sext16 (bits cw 15 8 * 256 + bits cw 7 0) (by omega)
  unfold decode decodeFields at h
  split at h
  case h_15 => cases h
  case h_1 =>
    obtain ⟨-, rfl⟩ := Machine.spell_eq_instr h
    trivial
  all_goals
    obtain ⟨-, rfl⟩ := Machine.spell_eq_instr h
    simp only [Instr.WellFormed, FitsSelector, FitsByte]
    omega

/-- Settles O2, command by command. -/
theorem encodedCommandDecodesBack : Obligations.EncodedCommandDecodesBack := by
  unfold Obligations.EncodedCommandDecodesBack
  exact fun _ h => decode_encode h

/-- Settles O3: a word's fields stand back in their places and fit them. -/
theorem decodedWordIsItsEncoding : Obligations.DecodedWordIsItsEncoding := by
  unfold Obligations.DecodedWordIsItsEncoding
  exact fun _ _ h => ⟨encode_of_decode h, wellFormed_of_decode h⟩

/-- Settles O1: eighteen closed words. -/
theorem specExampleWordsDecode : Obligations.SpecExampleWordsDecode := by
  unfold Obligations.SpecExampleWordsDecode
  decide

/-! ### The opcode table (R92) -/

/-- A mask of the opcode bits alone reads the opcode (R81). -/
theorem and_opcodeMask_eq_iff (w : Word) {op : Nat} (hop : op < 16) :
    w &&& 0xF0000000#32 = BitVec.ofNat 32 (op * 2 ^ 28) ↔ bits w 31 28 = op := by
  have hmask : w &&& 0xF0000000#32 = w >>> 28 <<< 28 := (BitVec.shiftLeft_ushiftRight (x := w) (n := 28)).symm
  have hw := w.isLt
  rw [hmask, ← BitVec.toNat_inj, BitVec.toNat_shiftLeft, BitVec.toNat_ushiftRight, BitVec.toNat_ofNat,
    Nat.shiftLeft_eq, Nat.shiftRight_eq_div_pow]
  unfold bits
  omega

/-- A mask of the opcode and of must-be-zero bits matches exactly the words of that opcode with those bits 0 (R85, R92). -/
theorem and_rowMask_eq_iff (w : Word) {op : Nat} (hop : op < 16) {zeros : Word} (hz : zeros &&& 0xF0000000#32 = 0#32) :
    w &&& (0xF0000000#32 ||| zeros) = BitVec.ofNat 32 (op * 2 ^ 28) ↔ bits w 31 28 = op ∧ w &&& zeros = 0#32 := by
  have hpattern : BitVec.ofNat 32 (op * 2 ^ 28) &&& 0xF0000000#32 = BitVec.ofNat 32 (op * 2 ^ 28) := by
    rw [and_opcodeMask_eq_iff _ hop, bits, BitVec.toNat_ofNat]
    omega
  have hpatternZeros : BitVec.ofNat 32 (op * 2 ^ 28) &&& zeros = 0#32 := by
    rw [← hpattern, BitVec.and_assoc, BitVec.and_comm 0xF0000000#32, hz, BitVec.and_zero]
  rw [← and_opcodeMask_eq_iff w hop]
  constructor
  · intro h
    refine ⟨?_, ?_⟩
    · rw [← hpattern, ← h]
      grind
    · rw [← hpatternZeros, ← h]
      grind
  · rintro ⟨hopcode, hzeros⟩
    rw [BitVec.and_or_distrib_left, hopcode, hzeros, BitVec.or_zero]

/-- A row matches exactly the words of its opcode whose must-be-zero bits are 0 (R92). -/
theorem OpRow.spells_iff {r : OpRow} (hr : r ∈ opcodeTable) (cw : Word) :
    r.Spells cw ↔ bits cw 31 28 = bits r.pattern 31 28 ∧ cw &&& (r.mask &&& 0x0FFFFFFF#32) = 0#32 := by
  have hmask : ∀ r ∈ opcodeTable, r.mask = 0xF0000000#32 ||| (r.mask &&& 0x0FFFFFFF#32) := by decide
  have hpattern : ∀ r ∈ opcodeTable, r.pattern = BitVec.ofNat 32 (bits r.pattern 31 28 * 2 ^ 28) := by decide
  have hzeros : r.mask &&& 0x0FFFFFFF#32 &&& 0xF0000000#32 = 0#32 := by
    rw [BitVec.and_assoc]
    exact BitVec.and_zero
  rw [← and_rowMask_eq_iff cw (bits_lt r.pattern 31 28) hzeros, ← hmask r hr, ← hpattern r hr]

/-- The table has one row for each opcode below 0xE. -/
theorem eq_of_opcode_eq : ∀ r ∈ opcodeTable, ∀ r' ∈ opcodeTable,
    bits r.pattern 31 28 = bits r'.pattern 31 28 → r = r' := by
  decide

/-- The words that some row matches, as the must-be-zero masks of R85. -/
theorem exists_row_spells_iff (cw : Word) : (∃ r ∈ opcodeTable, r.Spells cw) ↔
    (bits cw 31 28 = 0x0 ∧ cw &&& 0x0FFFFFFF#32 = 0#32) ∨ (bits cw 31 28 = 0x1 ∧ cw &&& 0x000000FF#32 = 0#32) ∨
    (bits cw 31 28 = 0x2 ∧ cw &&& 0x0000FFFF#32 = 0#32) ∨ bits cw 31 28 = 0x3 ∨
    (bits cw 31 28 = 0x4 ∧ cw &&& 0x00FFFFFF#32 = 0#32) ∨ bits cw 31 28 = 0x5 ∨ bits cw 31 28 = 0x6 ∨
    (bits cw 31 28 = 0x7 ∧ cw &&& 0x00FFFF00#32 = 0#32) ∨ bits cw 31 28 = 0x8 ∨ bits cw 31 28 = 0x9 ∨
    bits cw 31 28 = 0xA ∨ bits cw 31 28 = 0xB ∨ (bits cw 31 28 = 0xC ∧ cw &&& 0x000000FF#32 = 0#32) ∨
    (bits cw 31 28 = 0xD ∧ cw &&& 0x0F00FFFF#32 = 0#32) := by
  rw [exists_congr fun r => and_congr_right fun hr => OpRow.spells_iff hr cw]
  simp only [opcodeTable, List.mem_cons, List.not_mem_nil, or_false, exists_eq_or_imp, exists_eq_left]
  simp only [BitVec.reduceAnd, BitVec.and_zero, and_true]
  rfl

/-- A word decodes to a command exactly when the decoder finds no reason to reject it. -/
theorem exists_decode_eq_instr_iff (cw : Word) : (∃ i, decode cw = .instr i) ↔ ¬ ∃ why, decode cw = .illegal why := by
  cases decode cw <;> simp

/-- Settles O5: the rows have fourteen opcodes, and each leaves out the words with a must-be-zero bit set, as the decoder does. -/
theorem opcodeRowsPartitionTheWords : Obligations.OpcodeRowsPartitionTheWords := by
  unfold Obligations.OpcodeRowsPartitionTheWords
  refine ⟨fun cw r hr r' hr' h h' => ?disjoint, fun cw => ?complete⟩
  case disjoint =>
    have hopcode := ((OpRow.spells_iff hr cw).1 h).1
    have hopcode' := ((OpRow.spells_iff hr' cw).1 h').1
    exact eq_of_opcode_eq r hr r' hr' (hopcode.symm.trans hopcode')
  case complete =>
    have hop : bits cw 31 28 < 16 := bits_lt cw 31 28
    rw [exists_row_spells_iff, exists_decode_eq_instr_iff, decode, exists_decodeFields_eq_illegal_iff hop]
    simp only [mask_all, mask_c, mask_bc, mask_abc, mask_ab, mask_sel_bc]
    generalize bits cw 31 28 = op at hop ⊢
    interval_cases op <;> simp [and_assoc]

end Sys2Proof
end

section
/-! SUPPORT. What a command can do, said once for all fourteen: its checks, its effect, and the ways exec can end; and the
statements about every step that follow from them. -/

namespace Sys2Proof.Machine

/-! ### Exec, for every command -/

/-- The checks of a command in their order (R209). NOP and RDREG have none. -/
def checksOf (s : State) : Instr → List (Bool × FaultCode)
  | .nop => []
  | .pcfg p w pages => pcfgChecks s p w pages
  | .fcfga f dp lp => fcfgaChecks s f dp lp
  | .fcfgb f _ _ _ => fcfgbChecks s f
  | .bclr p => usablePrinter s p
  | .lineh p x y len => linehChecks s p x y len
  | .linev p x y len => linevChecks s p x y len
  | .glyph p sym => symbolChecks s p sym
  | .push p _ _ len => pushChecks s p len
  | .print p _ _ sym => symbolChecks s p sym
  | .pclear p _ _ _ => usablePrinter s p
  | .setnum f lbl _ => setnumChecks s f lbl
  | .brd p x page => brdChecks s p x page
  | .rdreg _ => []

/-- The state a command whose checks pass leaves, before its response. -/
def effectOf (s : State) : Instr → State
  | .nop => s
  | .pcfg p w pages => setCtx s p ⟨true, BitVec.ofNat 8 w, BitVec.ofNat 8 pages⟩
  | .fcfga f dp lp => setDesc s f { desc s f with dp := BitVec.ofNat 4 dp, lp := BitVec.ofNat 4 lp, va := true }
  | .fcfgb f x page maxw => setDesc s f { desc s f with
      x := BitVec.ofNat 8 x, page := BitVec.ofNat 8 page, maxw := BitVec.ofNat 8 maxw, vb := true }
  | .bclr p => memZero s p
  | .lineh p x y len => lineH p x y len s
  | .linev p x y len => lineV p x y len s
  | .glyph p sym => draw p sym s
  | .push p col page len => push p col page len s
  | .print p col page sym => print p sym col page s
  | .pclear p col page width => clear p col page width s
  | .setnum f lbl value => setNumber f value lbl s
  | .brd _ _ _ => s
  | .rdreg _ => s

/-- Every command but RDREG is the frame of R209 around its checks and its effect. -/
theorem exec_eq_command_effectOf (i : Instr) (s : State) : (∃ addr, i = .rdreg addr) ∨
    ∃ value : State → Byte, exec i s = .next (command i (checksOf s i) (fun t => (effectOf t i, value t)) s) := by
  cases i with
  | rdreg addr => exact .inl ⟨addr, rfl⟩
  | _ => exact .inr ⟨_, rfl⟩

/-- Everything exec can do: answer and no more (discarded, or RDREG), enter the fault state, or complete after checks that all
pass. -/
theorem exec_cases {i : Instr} {s t : State} (h : exec i s = .next t) :
    (∃ code value, t = respond s code value) ∨ (Running s ∧ ∃ code, t = raiseFault code (encode i) s) ∨
    (Running s ∧ firstFault (checksOf s i) = none ∧ ∃ value, t = respond (effectOf s i) codeOk value) := by
  obtain ⟨addr, rfl⟩ | ⟨value, hexec⟩ := exec_eq_command_effectOf i s
  · cases h
    exact .inl ⟨_, _, rfl⟩
  · cases hexec.symm.trans h
    obtain ⟨-, hc⟩ | ⟨hrun, code, -, hc⟩ | ⟨hrun, hchecks, hc⟩ := command_cases i (checksOf s i) _ s
    · exact .inl ⟨_, _, hc⟩
    · exact .inr (.inl ⟨hrun, code, hc⟩)
    · exact .inr (.inr ⟨hrun, hchecks, _, hc⟩)

/-- What discarding, fault entry, the response and the command's effect keep, exec keeps. -/
theorem exec_keeps {α : Type} (g : State → α) (hrespond : ∀ s code value, g (respond s code value) = g s)
    (hfault : ∀ code cw s, g (raiseFault code cw s) = g s) {i : Instr} {s t : State} (h : exec i s = .next t)
    (heffect : firstFault (checksOf s i) = none → g (effectOf s i) = g s) : g t = g s := by
  obtain ⟨_, _, rfl⟩ | ⟨-, _, rfl⟩ | ⟨-, hchecks, _, rfl⟩ := exec_cases h
  · exact hrespond ..
  · exact hfault ..
  · exact (hrespond ..).trans (heffect hchecks)

/-! ### What an effect leaves alone -/

/-- An effect is one of the three constructions, or it leaves every register as it was (R20). -/
theorem effectOf_cases (s : State) (i : Instr) :
    (∃ p w pages, i = .pcfg p w pages) ∨ (∃ f dp lp, i = .fcfga f dp lp) ∨
    (∃ f x page maxw, i = .fcfgb f x page maxw) ∨ SameControl s (effectOf s i) := by
  cases i with
  | pcfg p w pages => exact .inl ⟨p, w, pages, rfl⟩
  | fcfga f dp lp => exact .inr (.inl ⟨f, dp, lp, rfl⟩)
  | fcfgb f x page maxw => exact .inr (.inr (.inl ⟨f, x, page, maxw, rfl⟩))
  | nop | brd | rdreg => exact .inr (.inr (.inr (.refl s)))
  | bclr => exact .inr (.inr (.inr (onlyBuffers_memZero ..).sameControl))
  | lineh => exact .inr (.inr (.inr (onlyBuffers_lineH ..).sameControl))
  | linev => exact .inr (.inr (.inr (onlyBuffers_lineV ..).sameControl))
  | glyph => exact .inr (.inr (.inr (onlyBuffers_draw ..).sameControl))
  | push | pclear => exact .inr (.inr (.inr (sameControl_emitAll ..)))
  | print => exact .inr (.inr (.inr (sameControl_print ..)))
  | setnum => exact .inr (.inr (.inr (sameControl_setNumber ..)))

theorem params_effectOf (s : State) (i : Instr) : (effectOf s i).params = s.params := by
  obtain ⟨p, w, pages, rfl⟩ | ⟨f, dp, lp, rfl⟩ | ⟨f, x, page, maxw, rfl⟩ | h := effectOf_cases s i
  · rfl
  · rfl
  · rfl
  · exact h.params

/-- Only PCFG writes a printer context (R21). -/
theorem pc_effectOf (s : State) {i : Instr} (hi : ∀ p w pages, i ≠ .pcfg p w pages) : (effectOf s i).pc = s.pc := by
  obtain ⟨p, w, pages, rfl⟩ | ⟨f, dp, lp, rfl⟩ | ⟨f, x, page, maxw, rfl⟩ | h := effectOf_cases s i
  · exact absurd rfl (hi p w pages)
  · rfl
  · rfl
  · exact h.pc

/-- Only FCFGA and FCFGB write a field descriptor (R23). -/
theorem fd_effectOf (s : State) {i : Instr} (ha : ∀ f dp lp, i ≠ .fcfga f dp lp)
    (hb : ∀ f x page maxw, i ≠ .fcfgb f x page maxw) : (effectOf s i).fd = s.fd := by
  obtain ⟨p, w, pages, rfl⟩ | ⟨f, dp, lp, rfl⟩ | ⟨f, x, page, maxw, rfl⟩ | h := effectOf_cases s i
  · rfl
  · exact absurd rfl (ha f dp lp)
  · exact absurd rfl (hb f x page maxw)
  · exact h.fd

/-! ### Checks that pass -/

theorem firstFault_eq_none_iff {checks : List (Bool × FaultCode)} :
    firstFault checks = none ↔ ∀ check ∈ checks, check.1 = false := by
  induction checks with
  | nil => simp [firstFault]
  | cons check rest ih =>
    obtain ⟨failed, code⟩ := check
    cases failed <;> simp [firstFault_cons, ih]

theorem firstFault_pcfgChecks_eq_none_iff {s : State} {p w pages : Nat} : firstFault (pcfgChecks s p w pages) = none ↔
    p < s.params.nprn ∧ (ctx s p).valid = false ∧ 2 ≤ w ∧ 1 ≤ pages ∧ pages ≤ s.params.maxp ∧
      w * pages ≤ s.params.bufsz := by
  simp only [firstFault_eq_none_iff, pcfgChecks, printerExists, List.mem_cons, List.not_mem_nil, or_false,
    forall_eq_or_imp, forall_eq, Bool.or_eq_false_iff, decide_eq_false_iff_not, not_le, not_lt, and_assoc]

theorem firstFault_fcfgaChecks_eq_none_iff {s : State} {f dp lp : Nat} : firstFault (fcfgaChecks s f dp lp) = none ↔
    f < s.params.nfld ∧ (desc s f).va = false ∧ UsablePrinter s dp ∧ UsablePrinter s lp := by
  simp only [firstFault_eq_none_iff, fcfgaChecks, fieldExists, printerExists, printerConfigured, List.mem_cons,
    List.not_mem_nil, or_false, forall_eq_or_imp, forall_eq, decide_eq_false_iff_not, not_le, Bool.not_eq_false']
  tauto

theorem firstFault_fcfgbChecks_eq_none_iff {s : State} {f : Nat} : firstFault (fcfgbChecks s f) = none ↔
    f < s.params.nfld ∧ (desc s f).vb = false := by
  simp [firstFault_eq_none_iff, fcfgbChecks, fieldExists]

/-! ### Statements about exec and the words accepted -/

/-- Settles O13, file by file; the commands that draw nothing leave the list of buffers itself. -/
theorem onlyNamedCommandsWriteEachFile : Obligations.OnlyNamedCommandsWriteEachFile := by
  unfold Obligations.OnlyNamedCommandsWriteEachFile
  intro i s t h
  refine ⟨fun hpcfg => ?contexts, fun hfcfga hfcfgb => ?descriptors,
    fun hbclr hlineh hlinev hglyph hprint hsetnum => ?buffers⟩
  case contexts => exact exec_keeps State.pc respond_pc raiseFault_pc h fun _ => pc_effectOf s hpcfg
  case descriptors => exact exec_keeps State.fd respond_fd raiseFault_fd h fun _ => fd_effectOf s hfcfga hfcfgb
  case buffers =>
    refine exec_keeps State.buf respond_buf raiseFault_buf h fun _ => ?_
    cases i with
    | bclr p => exact absurd rfl (hbclr p)
    | lineh p x y len => exact absurd rfl (hlineh p x y len)
    | linev p x y len => exact absurd rfl (hlinev p x y len)
    | glyph p sym => exact absurd rfl (hglyph p sym)
    | print p col page sym => exact absurd rfl (hprint p col page sym)
    | setnum f lbl v => exact absurd rfl (hsetnum f lbl v)
    | nop | pcfg | fcfga | fcfgb | push | pclear | brd | rdreg => rfl

/-- The output grew by some events and then one response word (R64, R80). -/
def RespondsOnce (s t : State) : Prop :=
  ∃ (es : List Event) (rw : Reply), t.trace = s.trace ++ es.map Output.event ++ [.response rw]

/-- An answer that changes nothing but what fault entry records sends no event. -/
theorem respondsOnce_of_trace {s t : State} {rw : Reply} (h : t.trace = s.trace ++ [.response rw]) : RespondsOnce s t :=
  ⟨[], rw, by rw [h, List.map_nil, List.append_nil]⟩

theorem EmitsOnly.respondsOnce {s t : State} (h : EmitsOnly s t) (code : BitVec 4) (value : Byte) :
    RespondsOnce s (respond t code value) := by
  obtain ⟨-, es, htrace⟩ := h
  exact ⟨es, _, by rw [respond_trace, htrace]⟩

theorem exec_respondsOnce (i : Instr) (s : State) : ∃ t, exec i s = .next t ∧ RespondsOnce s t := by
  obtain ⟨addr, rfl⟩ | ⟨checks, effect, hexec, heffect⟩ := exec_emitsOnly i s
  · exact ⟨_, rfl, respondsOnce_of_trace rfl⟩
  · refine ⟨_, hexec, ?_⟩
    obtain ⟨-, hc⟩ | ⟨-, code, -, hc⟩ | ⟨-, -, hc⟩ := command_cases i checks effect s <;> rw [hc]
    · exact respondsOnce_of_trace rfl
    · exact respondsOnce_of_trace rfl
    · exact heffect.respondsOnce ..

/-- Every word gets one response: an illegal one as a discarded or a faulting command does. -/
theorem accept_respondsOnce (cw : Word) (s : State) : ∃ t, accept cw s = .next t ∧ RespondsOnce s t := by
  cases hdec : decode cw with
  | instr i =>
    rw [accept, hdec]
    exact exec_respondsOnce i s
  | illegal why =>
    refine ⟨illegalWord cw s, by rw [accept, hdec], ?_⟩
    unfold illegalWord
    split <;> exact respondsOnce_of_trace rfl

/-- Settles O12: a presented word is accepted, and every word accepted gets one response after its events. -/
theorem oneResponseAfterAllEvents : Obligations.OneResponseAfterAllEvents := by
  unfold Obligations.OneResponseAfterAllEvents
  intro s cw hlegal
  obtain ⟨t, haccept, es, rw, htrace⟩ := accept_respondsOnce cw s
  exact ⟨t, es, rw, by rw [step_presentWord hlegal, haccept], htrace⟩

/-! ### Statements about the step -/

/-- Settles O6: a legal step takes its first transfer, and the word runs the command it spells. -/
theorem stepRunsDecodedCommand : Obligations.StepRunsDecodedCommand := by
  unfold Obligations.StepRunsDecodedCommand
  intro s cw i rest hlegal hinputs hdec
  rw [step_eq_takeInput hlegal, takeInput, hinputs]
  simp only [accept, hdec]

/-- Settles O7: the table's bits are the word presented, and the next step accepts it. -/
theorem presentedTableWordRunsNext : Obligations.PresentedTableWordRunsNext := by
  unfold Obligations.PresentedTableWordRunsNext
  intro s nbits w i hlegal htable
  have hdec : decode (tableWord nbits w) = .instr i := by
    unfold decodeTableWord at htable
    split at htable
    · rename_i hinstr
      cases htable
      exact hinstr
    · cases htable
  rw [State.withFetchWord, step_presentWord hlegal, accept, hdec]

/-- Settles O9: with no transfer pending a legal step takes none. -/
theorem idleStepChangesNothing : Obligations.IdleStepChangesNothing := by
  unfold Obligations.IdleStepChangesNothing
  intro s hlegal hinputs
  rw [step_eq_takeInput hlegal, takeInput, hinputs]

/-! ### Reset (R41, R230) -/

section
variable (c : Config.Params) (epoch : Nat)

@[simp] theorem ctx_fresh (p : Nat) : ctx (State.fresh c epoch) p = .unconfigured :=
  List.getElem?_getD_replicate_default_eq ..

@[simp] theorem desc_fresh (f : Nat) : desc (State.fresh c epoch) f = .unconfigured :=
  List.getElem?_getD_replicate_default_eq ..

@[simp] theorem bufOf_fresh (p : Nat) : bufOf (State.fresh c epoch) p = [] :=
  List.getElem?_getD_replicate_default_eq ..

@[simp] theorem memRead_fresh (p i : Nat) : memRead (State.fresh c epoch) p i = Config.unwrittenByte epoch p i := by
  rw [memRead, bufOf_fresh]
  rfl

end

/-- Settles O8: the reset state's files hold unconfigured entries, and its buffers list no byte. -/
theorem resetRequestTakesTheResetState : Obligations.ResetRequestTakesTheResetState := by
  unfold Obligations.ResetRequestTakesTheResetState
  intro s rest hlegal hinputs
  exact ⟨applyReset { s with inputs := rest }, by rw [step_eq_takeInput hlegal, takeInput, hinputs],
    ctx_fresh _ (s.epoch + 1), desc_fresh _ (s.epoch + 1), rfl, rfl, rfl, rfl, rfl, rfl, rfl, memRead_fresh _ _⟩

/-! ### What every word and every step keeps -/

section
variable {α : Type} (g : State → α) (hrespond : ∀ s code value, g (respond s code value) = g s)
  (hfault : ∀ code cw s, g (raiseFault code cw s) = g s)
include hrespond hfault

/-- What a response, fault entry and the command's effect keep, a word keeps. -/
theorem accept_keeps {cw : Word} {s t : State} (h : accept cw s = .next t)
    (heffect : ∀ i, firstFault (checksOf s i) = none → g (effectOf s i) = g s) : g t = g s := by
  obtain rfl | ⟨i, -, hexec⟩ := accept_cases h
  · unfold illegalWord
    split
    · exact hrespond ..
    · exact hfault ..
  · exact exec_keeps g hrespond hfault hexec (heffect i)

/-- What taking a transfer off the list, a response, fault entry and the command's effect keep, a step that is not a reset
keeps. -/
theorem step_keeps (hinputs : ∀ s rest, g { s with inputs := rest } = g s) {s t : State}
    (hreset : s.inputs.head? ≠ some .reset) (h : step s = .next t)
    (heffect : ∀ rest i, firstFault (checksOf { s with inputs := rest } i) = none →
      g (effectOf { s with inputs := rest } i) = g { s with inputs := rest }) : g t = g s := by
  obtain ⟨-, ⟨-, rfl⟩ | ⟨rest, hreq, -⟩ | ⟨cw, rest, -, haccept⟩⟩ := step_cases h
  · rfl
  · exact absurd (by rw [hreq]; rfl) hreset
  · exact (accept_keeps g hrespond hfault haccept (heffect rest)).trans (hinputs s rest)

end

/-- Settles O54: no command's effect writes the parameters, and a reset keeps them. -/
theorem noStepChangesTheParameters : Obligations.NoStepChangesTheParameters := by
  unfold Obligations.NoStepChangesTheParameters
  intro s t h
  obtain ⟨-, ⟨-, rfl⟩ | ⟨rest, -, rfl⟩ | ⟨cw, rest, -, haccept⟩⟩ := step_cases h
  · rfl
  · rfl
  · have hkept := accept_keeps State.params respond_params raiseFault_params haccept fun i _ => params_effectOf _ i
    exact hkept

/-! ### Constructions are final (R150, R170) -/

theorem ctx_setCtx_ne (s : State) {p q : Nat} (h : q ≠ p) (c : PrinterCtx) : ctx (setCtx s p c) q = ctx s q := by
  simp [ctx, setCtx, List.getD, List.getElem?_set_ne h.symm]

/-- Writing a descriptor changes a part of one at most where the new value differs from the old in that part. -/
theorem desc_setDesc_keeps {α : Type} (part : FieldDesc → α) {s : State} {f g : Nat} {d : FieldDesc}
    (h : g = f → part d = part (desc s g)) : part (desc (setDesc s f d) g) = part (desc s g) := by
  by_cases hg : g = f
  · by_cases hlen : f < s.fd.length
    · rw [desc_setDesc hlen, if_pos hg, h hg]
    · rw [desc, setDesc_fd, List.set_eq_of_length_le (Nat.le_of_not_lt hlen)]
      rfl
  · simp [desc, setDesc, List.getD, List.getElem?_set_ne (Ne.symm hg)]

/-- The half of a descriptor that FCFGA sets (R23). -/
def FieldDesc.printers (d : FieldDesc) : Bool × BitVec 4 × BitVec 4 := (d.va, d.dp, d.lp)

/-- The half of a descriptor that FCFGB sets (R23). -/
def FieldDesc.geometry (d : FieldDesc) : Bool × BitVec 8 × BitVec 8 × BitVec 8 := (d.vb, d.x, d.page, d.maxw)

section
variable {s : State} {i : Instr} (hchecks : firstFault (checksOf s i) = none)
include hchecks

/-- PCFG's checks refuse a configured context (R151). -/
theorem ctx_effectOf_of_valid {p : Nat} (hp : (ctx s p).valid = true) : ctx (effectOf s i) p = ctx s p := by
  obtain ⟨q, w, pages, rfl⟩ | ⟨f, dp, lp, rfl⟩ | ⟨f, x, page, maxw, rfl⟩ | h := effectOf_cases s i
  · obtain ⟨-, hfree, -⟩ := firstFault_pcfgChecks_eq_none_iff.1 hchecks
    have hne : p ≠ q := by
      rintro rfl
      rw [hp] at hfree
      cases hfree
    exact ctx_setCtx_ne s hne _
  · rfl
  · rfl
  · exact h.ctx p

/-- FCFGA's checks refuse a bound descriptor (R171), and FCFGB does not write this half. -/
theorem printers_effectOf_of_va {f : Nat} (hf : (desc s f).va = true) :
    (desc (effectOf s i) f).printers = (desc s f).printers := by
  obtain ⟨p, w, pages, rfl⟩ | ⟨g, dp, lp, rfl⟩ | ⟨g, x, page, maxw, rfl⟩ | h := effectOf_cases s i
  · rfl
  · obtain ⟨-, hfree, -⟩ := firstFault_fcfgaChecks_eq_none_iff.1 hchecks
    refine desc_setDesc_keeps FieldDesc.printers fun hfg => ?_
    rw [← hfg, hf] at hfree
    cases hfree
  · refine desc_setDesc_keeps FieldDesc.printers fun hfg => ?_
    rw [hfg]
    rfl
  · rw [h.desc f]

/-- FCFGB's checks refuse a descriptor with geometry (R172), and FCFGA does not write this half. -/
theorem geometry_effectOf_of_vb {f : Nat} (hf : (desc s f).vb = true) :
    (desc (effectOf s i) f).geometry = (desc s f).geometry := by
  obtain ⟨p, w, pages, rfl⟩ | ⟨g, dp, lp, rfl⟩ | ⟨g, x, page, maxw, rfl⟩ | h := effectOf_cases s i
  · rfl
  · refine desc_setDesc_keeps FieldDesc.geometry fun hfg => ?_
    rw [hfg]
    rfl
  · obtain ⟨-, hfree⟩ := firstFault_fcfgbChecks_eq_none_iff.1 hchecks
    refine desc_setDesc_keeps FieldDesc.geometry fun hfg => ?_
    rw [← hfg, hf] at hfree
    cases hfree
  · rw [h.desc f]

end

/-- Settles O55: each of the three is kept by every effect whose checks pass. -/
theorem constructionIsFinalUntilReset : Obligations.ConstructionIsFinalUntilReset := by
  unfold Obligations.ConstructionIsFinalUntilReset
  intro s t hreset hstep
  refine ⟨fun p hp => ?context, fun f hf => ?printers, fun f hf => ?geometry⟩
  case context =>
    exact step_keeps (ctx · p) (fun _ _ _ => rfl) (fun _ _ _ => rfl) (fun _ _ => rfl) hreset hstep
      fun _ _ hchecks => ctx_effectOf_of_valid hchecks hp
  case printers =>
    have hkept := step_keeps (fun u => (desc u f).printers) (fun _ _ _ => rfl) (fun _ _ _ => rfl) (fun _ _ => rfl)
      hreset hstep fun _ _ hchecks => printers_effectOf_of_va hchecks hf
    simp only [FieldDesc.printers, Prod.mk.injEq, hf] at hkept
    exact hkept
  case geometry =>
    have hkept := step_keeps (fun u => (desc u f).geometry) (fun _ _ _ => rfl) (fun _ _ _ => rfl) (fun _ _ => rfl)
      hreset hstep fun _ _ hchecks => geometry_effectOf_of_vb hchecks hf
    simp only [FieldDesc.geometry, Prod.mk.injEq, hf] at hkept
    exact hkept

end Sys2Proof.Machine
end

section
/-! SUPPORT. The state invariant over a step (R43): a reset gives a state that meets it, and every command whose checks pass keeps
it. -/

namespace Sys2Proof.Machine

/-! ### Reset -/

theorem ctxOk_unconfigured (c : Config.Params) : CtxOk c .unconfigured := ⟨rfl, rfl⟩

theorem descOk_unconfigured (s : State) : DescOk s .unconfigured := ⟨⟨rfl, rfl⟩, .inr ⟨rfl, rfl, rfl⟩⟩

/-- A block of a legal build just after a reset meets the invariant (R41). -/
theorem inv_fresh {c : Config.Params} (hlegal : c.Legal) (epoch : Nat) : (State.fresh c epoch).Inv where
  legal := hlegal
  pc_length := List.length_replicate
  buf_length := List.length_replicate
  fd_length := List.length_replicate
  ctx_ok p _ := by rw [ctx_fresh]; exact ctxOk_unconfigured _
  desc_ok f _ := by rw [desc_fresh]; exact descOk_unconfigured _
  buf_wf p _ := by rw [bufOf_fresh]; exact List.Pairwise.nil
  buf_bound p _ cell hcell := by rw [bufOf_fresh] at hcell; cases hcell
  fault_iff := iff_of_false Bool.false_ne_true (not_not.2 rfl)
  fcode_le := Nat.zero_le 8
  fcmd_zero _ := rfl
  events_fit e he := nomatch he

/-- A reset keeps what was sent before it, and everything else is as in a block just reset (R41, R230). -/
theorem inv_applyReset {s : State} (h : s.Inv) : (applyReset s).Inv :=
  have hfresh := inv_fresh h.legal (s.epoch + 1)
  ⟨hfresh.legal, hfresh.pc_length, hfresh.buf_length, hfresh.fd_length, hfresh.ctx_ok, hfresh.desc_ok, hfresh.buf_wf,
    hfresh.buf_bound, hfresh.fault_iff, hfresh.fcode_le, hfresh.fcmd_zero, h.events_fit⟩

/-- Settles O52: the default build is legal. -/
theorem resetMeetsTheInvariant : Obligations.ResetMeetsTheInvariant := by
  unfold Obligations.ResetMeetsTheInvariant
  exact inv_fresh (by decide) 0

/-! ### Constructions -/

/-- Configuring an unconfigured context keeps the invariant: no descriptor is bound to it, and its buffer, whose W and P were 0,
lists no byte (R43). -/
theorem inv_setCtx {s : State} (h : s.Inv) {p : Nat} (hp : p < s.params.nprn) (hfree : (ctx s p).valid = false)
    {c : PrinterCtx} (hc : CtxOk s.params c) : (setCtx s p c).Inv := by
  have hctx := ctx_setCtx (h.pc_length ▸ hp : p < s.pc.length) c
  have husable {q : Nat} (hq : UsablePrinter s q) : UsablePrinter (setCtx s p c) q := by
    have hne : q ≠ p := by
      rintro rfl
      rw [hq.2] at hfree
      cases hfree
    exact ⟨hq.1, by rw [hctx, if_neg hne]; exact hq.2⟩
  have hempty : ∀ cell ∈ bufOf s p, False := by
    intro cell hcell
    have hunconfigured := h.ctx_ok p hp
    rw [CtxOk, if_neg (by simp [hfree])] at hunconfigured
    have hbound := h.buf_bound p hp cell hcell
    simp [widthOf, hunconfigured.1] at hbound
  exact {
    legal := h.legal
    pc_length := List.length_set.trans h.pc_length
    buf_length := h.buf_length
    fd_length := h.fd_length
    ctx_ok q hq := by
      rw [hctx]
      split
      · exact hc
      · exact h.ctx_ok q hq
    desc_ok f hf := by
      obtain ⟨hprinters, hgeometry⟩ := h.desc_ok f hf
      refine ⟨?_, hgeometry⟩
      rw [desc_setCtx]
      split
      · rename_i hva
        rw [if_pos hva] at hprinters
        exact ⟨husable hprinters.1, husable hprinters.2⟩
      · rename_i hva
        rwa [if_neg hva] at hprinters
    buf_wf := h.buf_wf
    buf_bound q hq cell hcell := by
      by_cases hqp : q = p
      · subst hqp
        exact (hempty cell hcell).elim
      · rw [widthOf, pagesOf, hctx, if_neg hqp]
        exact h.buf_bound q hq cell hcell
    fault_iff := h.fault_iff
    fcode_le := h.fcode_le
    fcmd_zero := h.fcmd_zero
    events_fit := h.events_fit }

theorem inv_setDesc {s : State} (h : s.Inv) {f : Nat} (hf : f < s.params.nfld) {d : FieldDesc} (hd : DescOk s d) :
    (setDesc s f d).Inv where
  legal := h.legal
  pc_length := h.pc_length
  buf_length := h.buf_length
  fd_length := List.length_set.trans h.fd_length
  ctx_ok := h.ctx_ok
  desc_ok g hg := by
    rw [desc_setDesc (h.fd_length ▸ hf)]
    split
    · exact hd
    · exact h.desc_ok g hg
  buf_wf := h.buf_wf
  buf_bound := h.buf_bound
  fault_iff := h.fault_iff
  fcode_le := h.fcode_le
  fcmd_zero := h.fcmd_zero
  events_fit := h.events_fit

/-- A selector of an existing context is read back whole from its four bits (R10). -/
theorem State.Inv.toNat_selector {s : State} (h : s.Inv) {p : Nat} (hp : p < s.params.nprn) :
    (BitVec.ofNat 4 p).toNat = p := by
  have hnprn := h.legal.1.2
  rw [BitVec.toNat_ofNat, Nat.mod_eq_of_lt (by omega)]

/-! ### Commands -/

theorem firstFault_setnumChecks_eq_none_iff {s : State} {f lbl : Nat} : firstFault (setnumChecks s f lbl) = none ↔
    UsableField s f ∧ lbl < 15 ∧
      pagesOf s (desc s f).lp.toNat ≤ (desc s f).page.toNat + pagesOf s (desc s f).dp.toNat := by
  simp only [firstFault_eq_none_iff, setnumChecks, fieldExists, symbolValid, List.mem_cons, List.not_mem_nil, or_false,
    forall_eq_or_imp, forall_eq, decide_eq_false_iff_not, not_le, not_lt, Bool.or_eq_false_iff, Bool.not_eq_false',
    and_assoc]
  rfl

/-- The state of SetNumber after the clear and the symbols of the number, before the label (R176). -/
def digitsDrawn (f : Nat) (v : Int) (s : State) : State :=
  printDigits (desc s f).dp.toNat (desc s f).page.toNat (desc s f).x.toNat (decompose v)
    (clear (desc s f).dp.toNat (desc s f).x.toNat (desc s f).page.toNat (desc s f).maxw.toNat s)

/-- SetNumber ends by printing the label (R176). -/
theorem setNumber_eq_print (f : Nat) (v : Int) (lbl : Nat) (s : State) : setNumber f v lbl s =
    print (desc s f).lp.toNat lbl
      ((desc s f).x.toNat + digitsExtent s (desc s f).dp.toNat (decompose v) + widthOf s (desc s f).dp.toNat / 4)
      ((desc s f).page.toNat + pagesOf s (desc s f).dp.toNat - pagesOf s (desc s f).lp.toNat) (digitsDrawn f v s) := rfl

theorem sameControl_clear (p col page width : Nat) (s : State) : SameControl s (clear p col page width s) :=
  sameControl_emitAll ..

theorem sameControl_digitsDrawn (f : Nat) (v : Int) (s : State) : SameControl s (digitsDrawn f v s) :=
  (sameControl_clear ..).trans (sameControl_printDigits ..)

theorem length_buf_digitsDrawn (f : Nat) (v : Int) (s : State) : (digitsDrawn f v s).buf.length = s.buf.length :=
  length_buf_printDigits ..

section
variable {s : State} (h : s.Inv) {f : Nat} (hf : UsableField s f) {v : Int} (hv : FitsValue v)
include h hf hv

/-- The clear and the symbols stay within the bounds of R60: the number has at most six symbols (R181). -/
theorem inv_digitsDrawn : (digitsDrawn f v s).Inv := by
  obtain ⟨hdp, -⟩ := h.printers hf
  have hx := (desc s f).x.isLt
  have hpage := (desc s f).page.isLt
  have hmaxw := (desc s f).maxw.isLt
  have hlen := length_decompose_le v hv
  have hcleared := inv_clear h hdp (desc s f).x.toNat (desc s f).page.toNat (desc s f).maxw.toNat (by omega) (by omega)
    (by omega)
  exact (inv_printDigits (decompose v) hcleared ((sameControl_clear ..).usablePrinter hdp) _ _ (by omega) (by omega)).1

/-- The label stays within the bounds of R60 too, where the layout check passed (R179, R181). -/
theorem inv_setNumber (lbl : Nat)
    (hlayout : pagesOf s (desc s f).lp.toNat ≤ (desc s f).page.toNat + pagesOf s (desc s f).dp.toNat) :
    (setNumber f v lbl s).Inv := by
  obtain ⟨hdp, hlp⟩ := h.printers hf
  have hcontrol := sameControl_digitsDrawn f v s
  have hx := (desc s f).x.isLt
  have hpage := (desc s f).page.isLt
  have hlen := length_decompose_le v hv
  have hwidth := widthOf_lt s (desc s f).dp.toNat
  have hpages := h.pages_le hdp
  obtain ⟨-, hextent⟩ := inv_printDigits (decompose v) h hdp (desc s f).page.toNat (desc s f).x.toNat (by omega) (by omega)
  rw [setNumber_eq_print]
  refine inv_print (inv_digitsDrawn h hf hv) (hcontrol.usablePrinter hlp) lbl _ _ (by omega) ?_
  rw [hcontrol.pagesOf]
  omega

end

/-- A well-formed command whose checks pass keeps the invariant. -/
theorem inv_effectOf {s : State} (h : s.Inv) {i : Instr} (hi : i.WellFormed) (hchecks : firstFault (checksOf s i) = none) :
    (effectOf s i).Inv := by
  cases i with
  | nop | brd | rdreg => exact h
  | pcfg p w pages =>
    obtain ⟨hp, hfree, hw, hpages, hmaxp, hbufsz⟩ := firstFault_pcfgChecks_eq_none_iff.1 hchecks
    obtain ⟨-, hw', hpages'⟩ := hi
    refine inv_setCtx h hp hfree ?_
    rw [CtxOk, if_pos rfl, toNat_ofNat_byte hw', toNat_ofNat_byte hpages']
    exact ⟨hw, hpages, hmaxp, hbufsz⟩
  | fcfga f dp lp =>
    obtain ⟨hf, -, hdp, hlp⟩ := firstFault_fcfgaChecks_eq_none_iff.1 hchecks
    refine inv_setDesc h hf ⟨?_, (h.desc_ok f hf).2⟩
    rw [if_pos rfl, h.toNat_selector hdp.1, h.toNat_selector hlp.1]
    exact ⟨hdp, hlp⟩
  | fcfgb f x page maxw =>
    obtain ⟨hf, -⟩ := firstFault_fcfgbChecks_eq_none_iff.1 hchecks
    exact inv_setDesc h hf ⟨(h.desc_ok f hf).1, .inl rfl⟩
  | bclr p => exact inv_of_onlyBuffers h (onlyBuffers_memZero s p) (buffersOk_memZero h.buffersOk p)
  | lineh p x y len =>
    obtain ⟨-, hrange⟩ := usablePrinter_of_firstFault hchecks
    have hrange := firstFault_singleton hrange
    simp only [inRange, Bool.or_eq_false_iff, decide_eq_false_iff_not] at hrange
    exact inv_of_onlyBuffers h (onlyBuffers_lineH p x y len s) (buffersOk_lineH (by omega) (by omega) h.buffersOk)
  | linev p x y len =>
    obtain ⟨-, hrange⟩ := usablePrinter_of_firstFault hchecks
    have hrange := firstFault_singleton hrange
    simp only [inRange, Bool.or_eq_false_iff, decide_eq_false_iff_not] at hrange
    exact inv_of_onlyBuffers h (onlyBuffers_lineV p x y len s)
      (buffersOk_lineV (by omega) (by omega) (by omega) h.buffersOk)
  | glyph p sym =>
    obtain ⟨hp, -⟩ := usablePrinter_of_firstFault hchecks
    obtain ⟨hw, hpages⟩ := h.geometry hp
    exact inv_of_onlyBuffers h (onlyBuffers_draw p sym s) (buffersOk_draw sym hw hpages h.buffersOk)
  | push p col page len =>
    obtain ⟨hp, -⟩ := usablePrinter_of_firstFault hchecks
    obtain ⟨-, hcol, hpage, hlen⟩ := hi
    refine inv_emitAll h fun e he => ?_
    obtain ⟨i, hi, rfl⟩ := List.mem_map.1 he
    have hi := List.mem_range.1 hi
    have hpages := h.pages_le hp
    exact ⟨by omega, by omega, by omega, by simp [pageRun]⟩
  | print p col page sym =>
    obtain ⟨hp, -⟩ := usablePrinter_of_firstFault hchecks
    obtain ⟨-, hcol, hpage, -⟩ := hi
    have hpages := h.pages_le hp
    exact inv_print h hp sym col page (by omega) (by omega)
  | pclear p col page width =>
    have hp : UsablePrinter s p := (usablePrinter_of_firstFault (rest := []) (by rwa [List.append_nil])).1
    obtain ⟨-, hcol, hpage, hwidth⟩ := hi
    exact inv_clear h hp col page width (by omega) (by omega) (by omega)
  | setnum f lbl v =>
    obtain ⟨hf, -, hlayout⟩ := firstFault_setnumChecks_eq_none_iff.1 hchecks
    obtain ⟨-, -, hv⟩ := hi
    exact inv_setNumber h hf hv lbl hlayout

theorem inv_exec {s t : State} (h : s.Inv) {i : Instr} (hi : i.WellFormed) (hexec : exec i s = .next t) : t.Inv := by
  obtain ⟨_, _, rfl⟩ | ⟨-, _, rfl⟩ | ⟨-, hchecks, _, rfl⟩ := exec_cases hexec
  · exact inv_respond h ..
  · exact inv_raiseFault h ..
  · exact inv_respond (inv_effectOf h hi hchecks) ..

/-- A word keeps the invariant: an illegal one is discarded or faults, and a legal one is a well-formed command. -/
theorem inv_accept {s t : State} (h : s.Inv) {cw : Word} (haccept : accept cw s = .next t) : t.Inv := by
  obtain rfl | ⟨i, hdec, hexec⟩ := accept_cases haccept
  · unfold illegalWord
    split
    · exact inv_respond h ..
    · exact inv_raiseFault h ..
  · exact inv_exec h (wellFormed_of_decode hdec) hexec

/-- Settles O53: a step is idle, a reset or one word. -/
theorem everyStepKeepsTheInvariant : Obligations.EveryStepKeepsTheInvariant := by
  unfold Obligations.EveryStepKeepsTheInvariant
  intro s t h hstep
  obtain ⟨-, ⟨-, rfl⟩ | ⟨rest, -, rfl⟩ | ⟨cw, rest, -, haccept⟩⟩ := step_cases hstep
  · exact h
  · exact inv_applyReset (inv_inputs h rest)
  · exact inv_accept (inv_inputs h rest) haccept

end Sys2Proof.Machine
end

section
/-! SUPPORT. Commands that complete: the constructions, the lines, GLYPH and PRINT, and what the drawn glyph reads back as
(R113 to R120, R137 to R139, R151, R155, R171, R172, R190, R191). -/

namespace Sys2Proof.Machine

/-! ### System commands and constructions -/

/-- Settles O28: NOP has no checks. -/
theorem nopCompletes : Obligations.NopCompletes := by
  unfold Obligations.NopCompletes
  intro s hrun
  rw [exec_completes hrun rfl rfl, respond_ok_zero]

/-- Settles O37: RDREG is its response. -/
theorem rdregCompletes : Obligations.RdregCompletes := by
  unfold Obligations.RdregCompletes
  intro s addr _
  rw [← respond_ok]
  rfl

/-- Settles O29: the statement's hypotheses are PCFG's checks. -/
theorem pcfgCompletes : Obligations.PcfgCompletes := by
  unfold Obligations.PcfgCompletes
  intro s p w pages _ hrun hp hfree hw hpages hmaxp hbufsz
  rw [exec_completes hrun rfl (firstFault_pcfgChecks_eq_none_iff.2 ⟨hp, hfree, hw, hpages, hmaxp, hbufsz⟩),
    respond_ok_zero]
  rfl

/-- Settles O30: the statement's hypotheses are FCFGA's checks. -/
theorem fcfgaCompletes : Obligations.FcfgaCompletes := by
  unfold Obligations.FcfgaCompletes
  intro s f dp lp _ hrun hf hfree hdp hlp
  rw [exec_completes hrun rfl (firstFault_fcfgaChecks_eq_none_iff.2 ⟨hf, hfree, hdp, hlp⟩), respond_ok_zero]
  rfl

/-- Settles O31: the statement's hypotheses are FCFGB's checks. -/
theorem fcfgbCompletes : Obligations.FcfgbCompletes := by
  unfold Obligations.FcfgbCompletes
  intro s f x page maxw _ hrun hf hfree
  rw [exec_completes hrun rfl (firstFault_fcfgbChecks_eq_none_iff.2 ⟨hf, hfree⟩), respond_ok_zero]
  rfl

/-! ### Lines -/

/-- Settles O32: MemZero is BCLR's whole drawing. -/
theorem bclrCompletes : Obligations.BclrCompletes := by
  unfold Obligations.BclrCompletes
  intro s p hinv hrun hp
  have hread := memRead_memZero (hinv.buf_lt hp)
  obtain ⟨hexec, hcontrol, htrace⟩ := exec_completes_onlyBuffers (i := .bclr p) hrun rfl
    (firstFault_usablePrinter_nil hp) (onlyBuffers_memZero s p)
  refine ⟨_, hexec, hcontrol, htrace, fun i hi => ?zeroed, fun q i hi => ?frame⟩
  case zeroed => rw [memRead_respond, hread, if_pos ⟨rfl, hi⟩]
  case frame => rw [memRead_respond, hread, if_neg (by omega)]

/-- Settles O35: LINEV completes, and LineV leaves the state of its reference. -/
theorem linevEqualsRowByRowReference : Obligations.LinevEqualsRowByRowReference := by
  unfold Obligations.LinevEqualsRowByRowReference
  intro s p x y len hinv hrun hp hx hy hlen
  rw [← lineV_eq_lineVref y len (hinv.buf_lt hp) (hinv.buf_wf p hp.1) hx]
  have hexec : exec (.linev p x y len) s = .next (command (.linev p x y len) (linevChecks s p x y len)
      (fun t => (lineV p x y len t, 0#8)) s) := rfl
  exact exec_completes hrun hexec (firstFault_linevChecks hp hx hy hlen)

theorem firstFault_brdChecks {s : State} {p x q : Nat} (hp : UsablePrinter s p) (hx : x < widthOf s p)
    (hq : q < pagesOf s p) : firstFault (brdChecks s p x q) = none := by
  rw [brdChecks, firstFault_usablePrinter hp]
  simp [inRange, firstFault, Nat.not_le.2 hx, Nat.not_le.2 hq]

/-- Settles O36: BRD's effect is the state itself. -/
theorem brdCompletes : Obligations.BrdCompletes := by
  unfold Obligations.BrdCompletes
  intro s p x q hrun hp hx hq
  rw [exec_completes hrun rfl (firstFault_brdChecks hp hx hq), respond_ok]

/-! ### Glyphs -/

/-- Settles O40: the drawn width by its definition, its bounds from a width of at least 2 in eight bits. -/
theorem drawnWidthIsHalfOrFull : Obligations.DrawnWidthIsHalfOrFull := by
  unfold Obligations.DrawnWidthIsHalfOrFull
  intro s p sym hinv hp
  obtain ⟨hlow, hhigh⟩ := drawnWidth_bounds (strokeOf s.params sym) (hinv.geometry hp).1
  exact ⟨rfl, hlow, hhigh, Nat.le_of_lt_succ (widthOf_lt s p)⟩

/-- The response of a command that answers a drawn width (R118, R156). -/
theorem responseWord_glyphWidth (s : State) (p sym : Nat) : responseWord codeOk (BitVec.ofNat 8 (glyphWidth s p sym)) =
    BitVec.ofNat 16 (drawnWidth (strokeOf s.params sym) (widthOf s p)) := by
  have hlt := glyphWidth_lt s p sym
  rw [responseWord_ok, ← BitVec.toNat_inj, BitVec.zeroExtend, BitVec.toNat_setWidth, toNat_ofNat_byte hlt,
    BitVec.toNat_ofNat]
  rfl

/-- Draw touches the first W*P bytes of its context alone (R117, R159). -/
theorem memRead_draw_frame {s : State} (h : s.Inv) {p : Nat} (hp : UsablePrinter s p) (sym : Nat) {q i : Nat}
    (hq : q ≠ p ∨ widthOf s p * pagesOf s p ≤ i) : memRead (draw p sym s) q i = memRead s q i := by
  obtain ⟨hw, hpages⟩ := h.geometry hp
  by_cases hqp : q = p
  · subst hqp
    exact memRead_draw_above sym (h.buf_lt hp) hw hpages (hq.resolve_left (not_not.2 rfl))
  · exact memRead_draw_ne sym i (h.buf_lt hp) hqp

/-- Settles O38: GLYPH is Draw, which leaves the closed form's pixels. -/
theorem glyphCompletes : Obligations.GlyphCompletes := by
  unfold Obligations.GlyphCompletes
  intro s p sym hinv hrun hp hsym
  have hdraw := onlyBuffers_draw p sym s
  refine ⟨_, exec_completes hrun rfl (firstFault_symbolChecks hp hsym),
    hdraw.sameControl.trans (sameControl_respond ..), ?trace, fun cx r hcx hr => ?pixels, fun q i hq => ?frame⟩
  case trace => rw [respond_trace, hdraw.trace, responseWord_glyphWidth]
  case pixels => exact pix_draw (hinv.buf_lt hp) (hinv.geometry hp).1 hcx hr
  case frame => exact memRead_draw_frame hinv hp sym hq

/-- Settles O42: PRINT is Draw, then the events of the closed form. -/
theorem printCompletes : Obligations.PrintCompletes := by
  unfold Obligations.PrintCompletes
  intro s p col page sym hinv hrun hp hsym
  have hbuf := hinv.buf_lt hp
  obtain ⟨hw, -⟩ := hinv.geometry hp
  refine ⟨_, exec_completes hrun rfl (firstFault_symbolChecks hp hsym),
    (sameControl_print ..).trans (sameControl_respond ..), ?trace, fun cx r hcx hr => ?pixels, fun q i hq => ?frame⟩
  case trace => rw [respond_trace, trace_print sym col page hbuf hw, responseWord_glyphWidth]
  case pixels => exact pix_draw hbuf hw hcx hr
  case frame => exact memRead_draw_frame hinv hp sym hq

/-! ### Reading a glyph back (R120)

Each of the seven sample pixels lies on its own stroke and on no other: column 1 is inside the horizontal strokes and clear of the
vertical ones in a glyph at least 3 wide, rows 1 and half + 1 are inside the vertical strokes and clear of the horizontal ones. -/

section
variable (code : Byte) {w pages : Nat} (hw : 3 ≤ w) (hpages : 1 ≤ pages)
include hw hpages

theorem glyphPixel_top : glyphPixel code w pages 1 0 = code.getLsbD 0 := by grind [glyphPixel]

theorem glyphPixel_upperRight : glyphPixel code w pages (w - 1) 1 = code.getLsbD 1 := by grind [glyphPixel]

theorem glyphPixel_lowerRight : glyphPixel code w pages (w - 1) (3 * pages + 1) = code.getLsbD 2 := by grind [glyphPixel]

theorem glyphPixel_bottom : glyphPixel code w pages 1 (6 * pages - 1) = code.getLsbD 3 := by grind [glyphPixel]

theorem glyphPixel_lowerLeft : glyphPixel code w pages 0 (3 * pages + 1) = code.getLsbD 4 := by grind [glyphPixel]

theorem glyphPixel_upperLeft : glyphPixel code w pages 0 1 = code.getLsbD 5 := by grind [glyphPixel]

theorem glyphPixel_middle : glyphPixel code w pages 1 (3 * pages) = code.getLsbD 6 := by grind [glyphPixel]

end

/-- The seven stroke bits put in their places are the code without its half-width bit. -/
theorem or_bitReg_getLsbD (code : Byte) :
    bitReg (code.getLsbD 0) 0 ||| bitReg (code.getLsbD 1) 1 ||| bitReg (code.getLsbD 2) 2 |||
      bitReg (code.getLsbD 3) 3 ||| bitReg (code.getLsbD 4) 4 ||| bitReg (code.getLsbD 5) 5 |||
      bitReg (code.getLsbD 6) 6 = code &&& 0x7F#8 := by
  revert code
  decide

/-- A context whose pixels are a glyph's decodes to the glyph's strokes. -/
theorem decodedStrokes_of_pix {t : State} {p w : Nat} {code : Byte} (hw : 3 ≤ w) (hpages : 1 ≤ pagesOf t p)
    (hpix : ∀ x r, x < w → r < 8 * pagesOf t p → pix t p x r = glyphPixel code w (pagesOf t p) x r) :
    decodedStrokes t p w = code &&& 0x7F#8 := by
  rw [← or_bitReg_getLsbD, ← glyphPixel_top code hw hpages, ← glyphPixel_upperRight code hw hpages,
    ← glyphPixel_lowerRight code hw hpages, ← glyphPixel_bottom code hw hpages, ← glyphPixel_lowerLeft code hw hpages,
    ← glyphPixel_upperLeft code hw hpages, ← glyphPixel_middle code hw hpages]
  simp (disch := omega) only [← hpix]
  rfl

/-- Settles O39: GLYPH leaves the closed form's pixels, the drawn width at most W of them in a row. -/
theorem glyphReadsBackAsItsStrokes : Obligations.GlyphReadsBackAsItsStrokes := by
  unfold Obligations.GlyphReadsBackAsItsStrokes
  intro s t p sym hinv hrun hp hsym hw hexec
  obtain ⟨t', hexec', hcontrol, -, hpix, -⟩ := glyphCompletes s p sym hinv hrun hp hsym
  cases hexec.symm.trans hexec'
  have hpages := hcontrol.pagesOf p
  refine decodedStrokes_of_pix hw (by rw [hpages]; exact (hinv.geometry hp).2) fun x r hx hr => ?_
  rw [hpages] at hr ⊢
  exact hpix x r (Nat.lt_of_lt_of_le hx (drawnWidth_le ..)) hr

end Sys2Proof.Machine
end

section
/-! SUPPORT. A completed SETNUM: its events and frame (R176, R179), the glyphs it leaves in its printers' buffers (R184), and that
it keeps nothing between calls (R183). -/

namespace Sys2Proof.Machine

/-- Settles O48: eight closed values. -/
theorem decomposeExamples : Obligations.DecomposeExamples := by
  unfold Obligations.DecomposeExamples
  decide

/-! ### What SetNumber sends and leaves alone -/

section
variable {s : State} (h : s.Inv) {f : Nat} (hf : UsableField s f)
include h hf

/-- The events of SetNumber on a usable field are those of the closed form (R176). -/
theorem State.Inv.trace_setNumber (v : Int) (lbl : Nat) : (setNumber f v lbl s).trace = s.trace ++
    (fieldEvents s.params (ctx s (desc s f).dp.toNat) (ctx s (desc s f).lp.toNat) (desc s f) v lbl).map Output.event :=
  have ⟨hdp, hlp⟩ := h.printers hf
  Machine.trace_setNumber v lbl (h.buf_lt hdp) (h.buf_lt hlp) (h.geometry hdp).1 (h.geometry hlp).1

/-- SetNumber touches the W*P bytes of its two printers alone. -/
theorem memRead_setNumber_frame (v : Int) (lbl : Nat) {q i : Nat}
    (hdp : q ≠ (desc s f).dp.toNat ∨ widthOf s q * pagesOf s q ≤ i)
    (hlp : q ≠ (desc s f).lp.toNat ∨ widthOf s q * pagesOf s q ≤ i) :
    memRead (setNumber f v lbl s) q i = memRead s q i := by
  obtain ⟨hdigit, hlabel⟩ := h.printers hf
  have hclear := sameControl_clear (desc s f).dp.toNat (desc s f).x.toNat (desc s f).page.toNat (desc s f).maxw.toNat s
  rw [setNumber_eq_print,
    memRead_print_frame h (sameControl_digitsDrawn ..) (length_buf_digitsDrawn ..) hlabel _ _ _ _ _ hlp, digitsDrawn,
    memRead_printDigits_frame h hclear rfl hdigit _ _ _ _ _ hdp]
  rfl

end

/-- SETNUM whose checks pass is SetNumber and the response 0x0000 (R179). -/
theorem exec_setnum_of_checks {s : State} {f lbl : Nat} (v : Int) (hrun : Running s)
    (hchecks : firstFault (setnumChecks s f lbl) = none) :
    exec (.setnum f lbl v) s = .next (respond (setNumber f v lbl s) codeOk 0#8) := by
  have hexec : exec (.setnum f lbl v) s =
      .next (command (.setnum f lbl v) (setnumChecks s f lbl) (fun t => (setNumber f v lbl t, 0#8)) s) := rfl
  exact exec_completes hrun hexec hchecks

/-- Settles O44: the checks pass, and SetNumber's events and frame are its effect's. -/
theorem setnumCompletes : Obligations.SetnumCompletes := by
  unfold Obligations.SetnumCompletes
  intro s f lbl v hinv hrun hf hlbl _ hlayout
  refine ⟨_, exec_setnum_of_checks v hrun (firstFault_setnumChecks hf hlbl hlayout),
    (sameControl_setNumber ..).trans (sameControl_respond ..), ?trace, fun q i hdp hlp => ?frame⟩
  case trace =>
    rw [respond_trace, hinv.trace_setNumber hf]
    rfl
  case frame => exact memRead_setNumber_frame hinv hf v lbl hdp hlp

/-! ### The glyphs left behind -/

/-- The last symbol of a number is its least significant digit (R173). -/
theorem exists_decompose_eq_concat (v : Int) : ∃ ds, decompose v = ds ++ [v.natAbs % 10] := by
  rw [decompose_eq, digitsUp, List.reverse_cons, ← List.append_assoc]
  exact ⟨_, rfl⟩

/-- The symbols of a number one after the other: the digit loop over all but the last, then the last one. -/
theorem exists_printDigits_concat (dp top col d : Nat) (ds : List Nat) (s : State) :
    ∃ last, printDigits dp top col (ds ++ [d]) s = print dp d last top (printDigits dp top col ds s) := by
  induction ds generalizing col s with
  | nil => exact ⟨col, rfl⟩
  | cons e rest ih => exact ih _ _

/-- After Print in a state with the old registers the pixels of the context are the glyph's of the old geometry (R116). -/
theorem pix_print {s t : State} (h : s.Inv) (hs : SameControl s t) (hb : t.buf.length = s.buf.length) {p : Nat}
    (hp : UsablePrinter s p) (sym col page : Nat) {cx r : Nat} (hcx : cx < widthOf s p) (hr : r < 8 * pagesOf s p) :
    pix (print p sym col page t) p cx r =
      glyphPixel (strokeOf s.params sym) (glyphWidth s p sym) (pagesOf s p) cx r := by
  obtain ⟨hbuf, hw, -⟩ := h.after hs hb hp
  have hdraw : pix (print p sym col page t) p cx r = pix (draw p sym t) p cx r := rfl
  rw [hdraw, pix_draw hbuf hw (by rwa [hs.widthOf]) (by rwa [hs.pagesOf]), glyphWidth, hs.params, hs.widthOf, hs.pagesOf]
  rfl

/-- Print leaves the pixels of every other context. -/
theorem pix_print_ne {t : State} {p q : Nat} (hp : p < t.buf.length) (hq : q ≠ p) (sym col page cx r : Nat) :
    pix (print p sym col page t) q cx r = pix t q cx r := by
  rw [pix, (sameControl_print ..).widthOf, memRead_print, memRead_draw_ne sym _ hp hq]
  rfl

/-- Settles O45: the label is printed last, and before it the digit printer's last symbol. -/
theorem setnumLeavesLastGlyphs : Obligations.SetnumLeavesLastGlyphs := by
  unfold Obligations.SetnumLeavesLastGlyphs
  intro s t f lbl v hinv hrun hf hlbl _ hlayout hexec
  obtain ⟨hdigit, hlabel⟩ := hinv.printers hf
  cases hexec.symm.trans (exec_setnum_of_checks v hrun (firstFault_setnumChecks hf hlbl hlayout))
  refine ⟨fun cx r hcx hr => ?label, fun hne cx r hcx hr => ?digit⟩ <;> rw [pix_respond, setNumber_eq_print]
  case label =>
    exact pix_print hinv (sameControl_digitsDrawn ..) (length_buf_digitsDrawn ..) hlabel _ _ _ hcx hr
  case digit =>
    have hother : (desc s f).dp.toNat ≠ (desc s f).lp.toNat := fun heq => hne (BitVec.eq_of_toNat_eq heq)
    have hbuf : (desc s f).lp.toNat < (digitsDrawn f v s).buf.length := by
      rw [length_buf_digitsDrawn]
      exact hinv.buf_lt hlabel
    obtain ⟨ds, hds⟩ := exists_decompose_eq_concat v
    rw [pix_print_ne hbuf hother, digitsDrawn, hds]
    obtain ⟨last, hlast⟩ := exists_printDigits_concat (desc s f).dp.toNat (desc s f).page.toNat (desc s f).x.toNat
      (v.natAbs % 10) ds (clear (desc s f).dp.toNat (desc s f).x.toNat (desc s f).page.toNat (desc s f).maxw.toNat s)
    rw [hlast]
    exact pix_print hinv ((sameControl_clear ..).trans (sameControl_printDigits ..)) (length_buf_printDigits ..) hdigit
      _ _ _ hcx hr

/-! ### Nothing kept between calls (R183) -/

/-- SETNUM's output is a response word that its checks determine, after the events of the closed form if they pass. -/
def setnumOutput (s : State) (f lbl : Nat) (v : Int) : List Output :=
  match firstFault (setnumChecks s f lbl) with
  | some code => [.response (responseWord code.number 0#8)]
  | none => (fieldEvents s.params (ctx s (desc s f).dp.toNat) (ctx s (desc s f).lp.toNat) (desc s f) v lbl).map
      Output.event ++ [.response (responseWord codeOk 0#8)]

theorem exists_exec_setnum {s : State} (h : s.Inv) (hrun : Running s) {f : Nat} (hf : UsableField s f) (lbl : Nat) (v : Int) :
    ∃ t, exec (.setnum f lbl v) s = .next t ∧ t.trace = s.trace ++ setnumOutput s f lbl v := by
  unfold setnumOutput
  split
  · rename_i code hchecks
    have hexec : exec (.setnum f lbl v) s = .next (raiseFault code (encode (.setnum f lbl v)) s) :=
      congrArg Host.Outcome.next (command_faults hrun hchecks)
    exact ⟨_, hexec, raiseFault_trace ..⟩
  · rename_i hchecks
    exact ⟨_, exec_setnum_of_checks v hrun hchecks, by rw [respond_trace, h.trace_setNumber hf, List.append_assoc]⟩

/-- Settles O46: the output is a function of the parameters, the descriptor, the two geometries and the operands. -/
theorem setnumKeepsNothingBetweenCalls : Obligations.SetnumKeepsNothingBetweenCalls := by
  unfold Obligations.SetnumKeepsNothingBetweenCalls
  intro s1 s2 f lbl v hinv1 hinv2 hrun1 hrun2 hparams hf1 hdesc hdp hlp _
  have hf2 : UsableField s2 f := by rwa [UsableField, ← hparams, ← hdesc]
  have hchecks : setnumChecks s2 f lbl = setnumChecks s1 f lbl := by
    unfold setnumChecks fieldExists pagesOf
    dsimp only
    rw [← hparams, ← hdesc, ← hdp, ← hlp]
  have hout : setnumOutput s2 f lbl v = setnumOutput s1 f lbl v := by
    rw [setnumOutput, setnumOutput, hchecks, ← hparams, ← hdesc, ← hdp, ← hlp]
  obtain ⟨t1, hexec1, htrace1⟩ := exists_exec_setnum hinv1 hrun1 hf1 lbl v
  obtain ⟨t2, hexec2, htrace2⟩ := exists_exec_setnum hinv2 hrun2 hf2 lbl v
  exact ⟨t1, t2, _, hexec1, hexec2, htrace1, by rw [htrace2, hout]⟩

end Sys2Proof.Machine
end

section
/-! SUPPORT. What PRINT and SETNUM do to the reference display (R66, R155, R160, R177, R239). -/

namespace Sys2Proof.Machine

/-- The events a command sends are those between what was sent before and its response. -/
theorem drop_events_of_trace {s t : State} {es : List Event} {rw : Reply}
    (h : t.trace = s.trace ++ es.map Output.event ++ [.response rw]) : (events t).drop (events s).length = es := by
  have hresponse : events t = events (emitAll s es) := events_of_response h
  rw [hresponse, events_of_events (emitAll_trace s es), List.drop_left]

section
variable {d : Config.SinkSize} {q c : Nat} (hin : InSink d q c)
include hin

/-- Printing a symbol replaces exactly the bytes of the drawn width on the glyph's pages (R155). -/
theorem sinkAfter_glyphEvents (old : Byte) (params : Config.Params) (w pages sym col page : Nat) :
    sinkAfter d old (glyphEvents params w pages sym col page) q c =
      if page ≤ q ∧ q < page + pages ∧ col ≤ c ∧ c < col + drawnWidth (strokeOf params sym) w then
        glyphByte (strokeOf params sym) (drawnWidth (strokeOf params sym) w) pages (q - page) (c - col)
      else old := by
  unfold glyphEvents
  split
  · rename_i hinside
    obtain ⟨hpage, hpages, hcol, hwidth⟩ := hinside
    have hreaches : Reaches d q c (page + (q - page)) col (drawnWidth (strokeOf params sym) w) :=
      ⟨by omega, hcol, hwidth, hin⟩
    have hbyte : c - col < drawnWidth (strokeOf params sym) w := by omega
    rw [sinkAfter_pages hpage hpages fun i byte hi => (sinkEvent_of_not_reaches (fun hr => hi hr.1) ..).1, sinkEvent,
      if_pos hreaches]
    simp [hbyte]
  · rename_i houtside
    refine sinkAfter_of_forall (fun e he byte => ?_) old
    obtain ⟨i, hi, rfl⟩ := List.mem_map.1 he
    have hi := List.mem_range.1 hi
    refine (sinkEvent_of_not_reaches (fun hr => houtside ?_) ..).1
    obtain ⟨hpage, hcol, hwidth, -⟩ := hr
    exact ⟨by omega, by omega, hcol, hwidth⟩

/-- Clearing zeroes every byte of its rectangle, whatever it was (R157). -/
theorem sinkAfter_clearEvents {pages page col width : Nat} (hpage : page ≤ q) (hpages : q < page + pages) (hcol : col ≤ c)
    (hwidth : c < col + width) (old : Byte) : sinkAfter d old (clearEvents pages col page width) q c = 0#8 := by
  have hreaches : Reaches d q c (page + (q - page)) col width := ⟨by omega, hcol, hwidth, hin⟩
  rw [clearEvents, sinkAfter_pages hpage hpages fun i byte hi => (sinkEvent_of_not_reaches (fun hr => hi hr.1) byte []).2,
    sinkEvent, if_pos hreaches]

end

/-- Settles O56: PRINT's events are the glyph's. -/
theorem printReplacesExactlyItsRectangle : Obligations.PrintReplacesExactlyItsRectangle := by
  unfold Obligations.PrintReplacesExactlyItsRectangle
  intro d s t p col page sym old q c hinv hrun hp hsym hexec hin
  obtain ⟨t', hexec', -, htrace, -⟩ := printCompletes s p col page sym hinv hrun hp hsym
  cases hexec.symm.trans hexec'
  rw [drop_events_of_trace htrace]
  exact sinkAfter_glyphEvents hin ..

/-- Settles O57: SETNUM's first events clear the rectangle, and what comes after them starts from that. -/
theorem setnumErasesItsField : Obligations.SetnumErasesItsField := by
  unfold Obligations.SetnumErasesItsField
  intro d s t f lbl v old old' q c hinv hrun hf hlbl hv hlayout hexec hin hpage hpages hcol hwidth
  obtain ⟨t', hexec', -, htrace, -⟩ := setnumCompletes s f lbl v hinv hrun hf hlbl hv hlayout
  cases hexec.symm.trans hexec'
  have hcleared := sinkAfter_clearEvents hin hpage hpages hcol hwidth
  unfold pagesOf at hcleared
  rw [drop_events_of_trace htrace]
  unfold fieldEvents
  rw [sinkAfter_append, sinkAfter_append, hcleared old, sinkAfter_append _ old', sinkAfter_append _ old', hcleared old']

end Sys2Proof.Machine
end
